-- ==== Sys2Proof/Word.lean ====
section
/-! DEFINITION. The value types of the hardware (00_scope.md R8, R9): every value is unsigned, of 8 or 16 bits. -/

namespace Sys2Proof

/-- `u8` of R9: a register, a timer or a byte of memory. -/
abbrev Byte := BitVec 8

/-- `u16` of R9: an opcode, the pc, the index register or a stack entry. -/
abbrev Word := BitVec 16

/-- The name of a general register V0..VF (R21), or of one of the sixteen keys (R33). -/
abbrev Reg := Fin 16

/-- VF, the flag register (R6, R22). -/
def vF : Reg := 15

end Sys2Proof
end

