-- ==== Sys2Proof/Syntax.lean ====
section
/-! DEFINITION. The 34 instructions of 30_encoding.md R77, one constructor per row of spec/opcode_table.json, named after
the decoder of R81. Operands are those of R71 and R72: register names, zero-extended immediates, and the sprite height as a
count. Bits the decoder does not examine (R75, R76) are no operands; the y of SHR and SHL is decoded (R81) but not read. -/

namespace Sys2Proof

inductive Instr where
  /-- 00E0 CLS: clear screen (R110). -/
  | cls
  /-- 00EE RET: return from subroutine (R120). -/
  | ret
  /-- 1NNN JP nnn: jump (R121). -/
  | jp (nnn : BitVec 12)
  /-- 2NNN CALL nnn: call subroutine (R122). -/
  | call (nnn : BitVec 12)
  /-- 3XNN SE Vx, nn: skip if equal to immediate (R123). -/
  | seVB (x : Reg) (nn : Byte)
  /-- 4XNN SNE Vx, nn: skip if not equal to immediate (R124). -/
  | sneVB (x : Reg) (nn : Byte)
  /-- 5XY0 SE Vx, Vy: skip if registers equal (R125). -/
  | seVV (x y : Reg)
  /-- 6XNN LD Vx, nn: load immediate (R140). -/
  | ldVB (x : Reg) (nn : Byte)
  /-- 7XNN ADD Vx, nn: add immediate, no carry (R141). -/
  | addVB (x : Reg) (nn : Byte)
  /-- 8XY0 LD Vx, Vy: register copy (R142). -/
  | ldVV (x y : Reg)
  /-- 8XY1 OR Vx, Vy (R143). -/
  | orVV (x y : Reg)
  /-- 8XY2 AND Vx, Vy (R144). -/
  | andVV (x y : Reg)
  /-- 8XY3 XOR Vx, Vy (R145). -/
  | xorVV (x y : Reg)
  /-- 8XY4 ADD Vx, Vy: add with carry (R147). -/
  | addVV (x y : Reg)
  /-- 8XY5 SUB Vx, Vy: V[x] - V[y] (R148). -/
  | subVV (x y : Reg)
  /-- 8XY6 SHR Vx: shift right by one (R149). -/
  | shrV (x y : Reg)
  /-- 8XY7 SUBN Vx, Vy: V[y] - V[x] into V[x] (R150). -/
  | subnVV (x y : Reg)
  /-- 8XYE SHL Vx: shift left by one (R151). -/
  | shlV (x y : Reg)
  /-- 9XY0 SNE Vx, Vy: skip if registers differ (R126). -/
  | sneVV (x y : Reg)
  /-- ANNN LD I, nnn: load index (R160). -/
  | ldI (nnn : BitVec 12)
  /-- BNNN JP V0, nnn: indexed jump (R127). -/
  | jpV0 (nnn : BitVec 12)
  /-- CXNN RND Vx, nn: random byte under mask (R155). -/
  | rnd (x : Reg) (nn : Byte)
  /-- DXYN DRW Vx, Vy, n: draw a sprite of n rows, 0 to 15 (R111). -/
  | drw (x y : Reg) (n : Nat)
  /-- EX9E SKP Vx: skip if key pressed (R180). -/
  | skp (x : Reg)
  /-- EXA1 SKNP Vx: skip if key not pressed (R181). -/
  | sknp (x : Reg)
  /-- FX07 LD Vx, DT: read delay timer (R182). -/
  | ldVDT (x : Reg)
  /-- FX0A LD Vx, K: wait for key (R183). -/
  | ldVK (x : Reg)
  /-- FX15 LD DT, Vx: set delay timer (R184). -/
  | ldDTV (x : Reg)
  /-- FX18 LD ST, Vx: set sound timer (R185). -/
  | ldSTV (x : Reg)
  /-- FX1E ADD I, Vx: add register to index, with overflow flag (R161). -/
  | addIV (x : Reg)
  /-- FX29 LD F, Vx: font glyph address (R162). -/
  | ldFV (x : Reg)
  /-- FX33 LD B, Vx: BCD store (R163). -/
  | ldBV (x : Reg)
  /-- FX55 LD [I], Vx: register dump of V0..Vx (R164). -/
  | ldMV (x : Reg)
  /-- FX65 LD Vx, [I]: register load of V0..Vx (R165). -/
  | ldVM (x : Reg)
deriving DecidableEq, Repr

end Sys2Proof
end

