-- ==== Sys2Proof/WellFormed.lean ====
section
/-! DEFINITION. Which instructions an opcode can carry (30_encoding.md R71, R72). Register names and immediates fit their
fields by their types; the one operand held as a count, the sprite height, must fit the 4-bit field n. -/

namespace Sys2Proof

/-- R72: "n is a u4 value 0-15"; every other operand is as wide as its field. -/
def Instr.wellFormed (i : Instr) : Bool :=
  match i with
  | .drw _ _ n => decide (n < 16)
  | .cls | .ret | .jp _ | .call _ | .seVB _ _ | .sneVB _ _ | .seVV _ _ | .ldVB _ _ | .addVB _ _ | .ldVV _ _
  | .orVV _ _ | .andVV _ _ | .xorVV _ _ | .addVV _ _ | .subVV _ _ | .shrV _ _ | .subnVV _ _ | .shlV _ _
  | .sneVV _ _ | .ldI _ | .jpV0 _ | .rnd _ _ | .skp _ | .sknp _ | .ldVDT _ | .ldVK _ | .ldDTV _ | .ldSTV _
  | .addIV _ | .ldFV _ | .ldBV _ | .ldMV _ | .ldVM _ => true

end Sys2Proof
end

