-- ==== Sys2Proof/Decode.lean ====
section
/-! DEFINITION. The decoder of 30_encoding.md R81 (two-level dispatch of R73-R76 over the map of R77), the encoder, and the
host's reading of an opcode-table word. The decoder is total: an opcode is one instruction or is unknown, by name (R78). -/

namespace Sys2Proof

/-- Why the decoder gives no instruction. -/
inductive DecodeError where
  /-- `Unknown(op)` of R81: no row of R77 matches (R78). -/
  | unknownOpcode (op : Word)
  /-- Fewer than the two bytes every opcode has (R70); a fetch never passes such a list. -/
  | tooFewBytes
deriving DecidableEq, Repr

/-- op[15:12], first-level dispatch (R71). -/
def opClass (op : Word) : BitVec 4 := op.extractLsb 15 12

/-- op[11:8] (R71). -/
def opX (op : Word) : Reg := ⟨(op.extractLsb 11 8).toNat, (op.extractLsb 11 8).isLt⟩

/-- op[7:4] (R71). -/
def opY (op : Word) : Reg := ⟨(op.extractLsb 7 4).toNat, (op.extractLsb 7 4).isLt⟩

/-- op[3:0]: the sprite height of DXYN and the selector of class 8 (R71). -/
def opN (op : Word) : BitVec 4 := op.extractLsb 3 0

/-- op[7:0]: the byte immediate and the selector of classes 0, E and F (R71). -/
def opNN (op : Word) : Byte := op.extractLsb 7 0

/-- op[11:0], the address immediate (R71). -/
def opNNN (op : Word) : BitVec 12 := op.extractLsb 11 0

/-- Class 0x0 dispatches on nn and ignores x (R74, R76). -/
def decodeClass0 (op : Word) : Except DecodeError Instr :=
  match (opNN op).toNat with
  | 0xE0 => .ok .cls
  | 0xEE => .ok .ret
  | _ => .error (.unknownOpcode op)

/-- Class 0x8 dispatches on n (R74). -/
def decodeClass8 (op : Word) : Except DecodeError Instr :=
  match (opN op).toNat with
  | 0x0 => .ok (.ldVV (opX op) (opY op))
  | 0x1 => .ok (.orVV (opX op) (opY op))
  | 0x2 => .ok (.andVV (opX op) (opY op))
  | 0x3 => .ok (.xorVV (opX op) (opY op))
  | 0x4 => .ok (.addVV (opX op) (opY op))
  | 0x5 => .ok (.subVV (opX op) (opY op))
  | 0x6 => .ok (.shrV (opX op) (opY op))
  | 0x7 => .ok (.subnVV (opX op) (opY op))
  | 0xE => .ok (.shlV (opX op) (opY op))
  | _ => .error (.unknownOpcode op)

/-- Class 0xE dispatches on nn (R74). -/
def decodeClassE (op : Word) : Except DecodeError Instr :=
  match (opNN op).toNat with
  | 0x9E => .ok (.skp (opX op))
  | 0xA1 => .ok (.sknp (opX op))
  | _ => .error (.unknownOpcode op)

/-- Class 0xF dispatches on nn (R74). -/
def decodeClassF (op : Word) : Except DecodeError Instr :=
  match (opNN op).toNat with
  | 0x07 => .ok (.ldVDT (opX op))
  | 0x0A => .ok (.ldVK (opX op))
  | 0x15 => .ok (.ldDTV (opX op))
  | 0x18 => .ok (.ldSTV (opX op))
  | 0x1E => .ok (.addIV (opX op))
  | 0x29 => .ok (.ldFV (opX op))
  | 0x33 => .ok (.ldBV (opX op))
  | 0x55 => .ok (.ldMV (opX op))
  | 0x65 => .ok (.ldVM (opX op))
  | _ => .error (.unknownOpcode op)

/-- The decoder of R81: first-level dispatch on the class (R73). Classes 5 and 9 do not examine n (R75). -/
def decode (op : Word) : Except DecodeError Instr :=
  match (opClass op).toNat with
  | 0x0 => decodeClass0 op
  | 0x1 => .ok (.jp (opNNN op))
  | 0x2 => .ok (.call (opNNN op))
  | 0x3 => .ok (.seVB (opX op) (opNN op))
  | 0x4 => .ok (.sneVB (opX op) (opNN op))
  | 0x5 => .ok (.seVV (opX op) (opY op))
  | 0x6 => .ok (.ldVB (opX op) (opNN op))
  | 0x7 => .ok (.addVB (opX op) (opNN op))
  | 0x8 => decodeClass8 op
  | 0x9 => .ok (.sneVV (opX op) (opY op))
  | 0xA => .ok (.ldI (opNNN op))
  | 0xB => .ok (.jpV0 (opNNN op))
  | 0xC => .ok (.rnd (opX op) (opNN op))
  | 0xD => .ok (.drw (opX op) (opY op) (opN op).toNat)
  | 0xE => decodeClassE op
  | 0xF => decodeClassF op
  | _ => .error (.unknownOpcode op)

/-- R53: the byte at the lower address holds bits 15-8. -/
def opcodeOfBytes (hi lo : Byte) : Word := hi ++ lo

/-- The decoder on bytes in address order: it consumes exactly two (R80) and hands back the rest. -/
def decodeBytes (bytes : List Byte) : Except DecodeError (Instr × List Byte) :=
  match bytes with
  | hi :: lo :: rest =>
    match decode (opcodeOfBytes hi lo) with
    | .ok i => .ok (i, rest)
    | .error e => .error e
  | _ => .error .tooFewBytes

/-- A register name as its 4-bit field. -/
def regField (r : Reg) : BitVec 4 := BitVec.ofNat 4 r.val

/-- The opcode c X Y n of patterns such as 8XY4 and DXYN (R8, R71). -/
def packXYN (c : BitVec 4) (x y : Reg) (n : BitVec 4) : Word := c ++ regField x ++ regField y ++ n

/-- The opcode c X nn of patterns such as 6XNN and FX55 (R8, R71). -/
def packXNN (c : BitVec 4) (x : Reg) (nn : Byte) : Word := c ++ regField x ++ nn

/-- The opcode c nnn of patterns such as 1NNN (R8, R71). -/
def packNNN (c : BitVec 4) (nnn : BitVec 12) : Word := c ++ nnn

/-- The canonical opcode of an instruction by the patterns of R77: ignored bits are 0 (R75, R76). -/
def encode (i : Instr) : Word :=
  match i with
  | .cls => 0x00E0
  | .ret => 0x00EE
  | .jp nnn => packNNN 0x1 nnn
  | .call nnn => packNNN 0x2 nnn
  | .seVB x nn => packXNN 0x3 x nn
  | .sneVB x nn => packXNN 0x4 x nn
  | .seVV x y => packXYN 0x5 x y 0x0
  | .ldVB x nn => packXNN 0x6 x nn
  | .addVB x nn => packXNN 0x7 x nn
  | .ldVV x y => packXYN 0x8 x y 0x0
  | .orVV x y => packXYN 0x8 x y 0x1
  | .andVV x y => packXYN 0x8 x y 0x2
  | .xorVV x y => packXYN 0x8 x y 0x3
  | .addVV x y => packXYN 0x8 x y 0x4
  | .subVV x y => packXYN 0x8 x y 0x5
  | .shrV x y => packXYN 0x8 x y 0x6
  | .subnVV x y => packXYN 0x8 x y 0x7
  | .shlV x y => packXYN 0x8 x y 0xE
  | .sneVV x y => packXYN 0x9 x y 0x0
  | .ldI nnn => packNNN 0xA nnn
  | .jpV0 nnn => packNNN 0xB nnn
  | .rnd x nn => packXNN 0xC x nn
  | .drw x y n => packXYN 0xD x y (BitVec.ofNat 4 n)
  | .skp x => packXNN 0xE x 0x9E
  | .sknp x => packXNN 0xE x 0xA1
  | .ldVDT x => packXNN 0xF x 0x07
  | .ldVK x => packXNN 0xF x 0x0A
  | .ldDTV x => packXNN 0xF x 0x15
  | .ldSTV x => packXNN 0xF x 0x18
  | .addIV x => packXNN 0xF x 0x1E
  | .ldFV x => packXNN 0xF x 0x29
  | .ldBV x => packXNN 0xF x 0x33
  | .ldMV x => packXNN 0xF x 0x55
  | .ldVM x => packXNN 0xF x 0x65

/-- The bytes an instruction occupies in memory, big-endian (R53). -/
def encodeBytes (i : Instr) : List Byte := [(encode i).extractLsb 15 8, (encode i).extractLsb 7 0]

/-- The two bytes, in address order, of an instruction whose table bits are `w` (bit 0 the least significant bit of the
opcode, R8): the high byte lies at the lower address (R53). Bits above `nbits` are 0. -/
def tableBytes (nbits w : Nat) : Byte × Byte :=
  (BitVec.ofNat 8 (w % 2 ^ nbits / 256), BitVec.ofNat 8 (w % 2 ^ nbits))

/-- What the decoder reads from an instruction given as spec/opcode_table.json numbers its bits. -/
def decodeTableWord (nbits w : Nat) : Option Instr :=
  match decodeBytes [(tableBytes nbits w).1, (tableBytes nbits w).2] with
  | .ok (i, _) => some i
  | .error _ => none

end Sys2Proof
end

