-- ==== Sys2Proof/Config.lean ====
section
/-! DEFINITION. What is fixed for one machine: the sizes of 00_scope.md R6, and the parameters of R7 that the spec leaves
open. VF_WRITE_ORDER, I_OVF_LIMIT and the random byte are constants without a body, so a claim about them holds whatever their
value; FONT is an argument of every operation that uses it, so a claim ranges over it. -/

namespace Sys2Proof.Config

/-- R6: 4096 bytes of memory, addresses 0x000-0xFFF. -/
def memSize : Nat := 4096

/-- R6: programs are loaded at 0x200, which is also the entry point (R57, R231). -/
def romBase : Nat := 0x200

/-- R6: the longest ROM, 4096 - 0x200 bytes. -/
def romMax : Nat := memSize - romBase

/-- R24, R91: the highest pc of a valid fetch, 4096 - 2. -/
def lastFetch : Nat := 0x0FFE

/-- The values of the parameter FONT (R7, D14), 16 glyphs of 5 bytes (R6): the bytes init puts at 0x000-0x04F. An argument of init and load_rom
(Machine/HostOps.lean); no instruction depends on it but through memory (log 5). -/
abbrev Font := Vector Byte 80

/-- The two values of the open parameter VF_WRITE_ORDER (43_alu.md R146, D10). -/
inductive VfWriteOrder where
  /-- FLAG_LAST: with x = F, VF ends as the flag. -/
  | flagLast
  /-- RESULT_LAST: with x = F, VF ends as the result. -/
  | resultLast
deriving DecidableEq, Repr, Inhabited

/-- The two values of the open parameter I_OVF_LIMIT (44_index_memory.md R161, D11, C4). -/
inductive IOvfLimit where
  /-- 0x0FFF: the flag of FX1E reports leaving the 4096-byte memory. -/
  | memoryRange
  /-- 0xFFFF: the flag of FX1E reports leaving the 16-bit range. -/
  | wordRange
deriving DecidableEq, Repr, Inhabited

/-- VF_WRITE_ORDER of this machine, left open by the spec (D10; log 3). -/
opaque vfWriteOrder : VfWriteOrder

/-- I_OVF_LIMIT of this machine, left open by the spec (D11; log 4). -/
opaque iOvfLimit : IOvfLimit

/-- The random byte of the k-th executed CXNN, a free draw (R154, D13; log 2). -/
opaque randByte : Nat → Byte

end Sys2Proof.Config
end

