-- ==== Sys2Proof/Machine/State.lean ====
section
/-! DEFINITION. The state of the core (10_state.md R20), its reset value (R38), and the reasons a step can stop. -/

namespace Sys2Proof.Machine

/-- The fault codes 1 to 6 of 60_exceptions.md R201; code 0, NONE, is the empty latch. -/
inductive FaultCode where
  /-- 1: no instruction pattern matches the fetched opcode (R202); info is the opcode. -/
  | unknownOpcode
  /-- 2: fetch with pc above 0x0FFE (R203); info is the pc. -/
  | fetchOutOfRange
  /-- 3: CALL with 16 entries on the stack (R204); info is the pc of the CALL. -/
  | stackOverflow
  /-- 4: RET with an empty stack (R205); info is the pc of the RET. -/
  | stackUnderflow
  /-- 5: DRW, LD B, LD [I] or LD Vx, [I] accessing an address at or above 4096 (R206); info is the lowest such address. -/
  | memoryOutOfRange
  /-- 6: SKP or SKNP with V[x] above 0x0F (R207); info is V[x]. -/
  | keyIndexOutOfRange
deriving DecidableEq, Repr

/-- What the fault latch holds: a code and an info value, "a natural number below 2^17" (R35). -/
structure FaultRecord where
  code : FaultCode
  info : Nat
deriving DecidableEq, Repr

/-- R32: 32 rows (index r, the y coordinate) of 64 one-bit pixels (index c, the x coordinate). -/
abbrev Framebuffer := Vector (Vector Bool 64) 32

/-- The 4096 bytes of R20 in one canonical form (`Memory.wf`): the cells that differ from their reset byte, by rising
address. -/
abbrev Memory := List Host.Cell

/-- The state record of R20, one field per row of its table, and the model's own index of the next random byte. -/
structure State where
  /-- `memory`. -/
  mem : Memory
  /-- `V`: V0..VF (R21). -/
  v : Vector Byte 16
  /-- `stack`: 16 slots (R26). -/
  stack : Vector Word 16
  /-- `sp`: the number of entries held, 0 to 16 inclusive (R26, C2). -/
  sp : Fin 17
  /-- `pc` (R24). -/
  pc : Word
  /-- `I` (R25). -/
  i : Word
  /-- `DT` (R30). -/
  dt : Byte
  /-- `ST` (R31). -/
  st : Byte
  /-- `fb` (R32). -/
  fb : Framebuffer
  /-- `keypad`: true means pressed (R33). -/
  keypad : Vector Bool 16
  /-- `dirty` (R34). -/
  dirty : Bool
  /-- `fault`: the latch, `none` for NONE (R35). -/
  fault : Option FaultRecord
  /-- The MODEL's own: how many random bytes have been drawn (R154; DESIGN CHOICE, log 2). -/
  draws : Nat
deriving DecidableEq, Repr

/-- No step of this machine stops: every error of the spec is taken as a latched fault in a next state (R209; log 1), so
the host's fault outcome has no reason to give. Safe or unsafe: see log 1. -/
inductive Fault
deriving DecidableEq, Repr

/-- Why the model itself would give no meaning. -/
inductive Refusal where
  /-- An arm of exec that has no meaning yet, by mnemonic; no arm answers with it. Safe. -/
  | notModelled (mnemonic : String)
deriving DecidableEq, Repr

/-- R38: the state after init, with the default FONT (log 5). Memory lists nothing, so every byte has its reset value. -/
def State.reset : State where
  mem := []
  v := Vector.replicate 16 0
  stack := Vector.replicate 16 0
  sp := 0
  pc := 0x0200
  i := 0
  dt := 0
  st := 0
  fb := Vector.replicate 32 (Vector.replicate 64 false)
  keypad := Vector.replicate 16 false
  dirty := false
  fault := none
  draws := 0

end Sys2Proof.Machine
end

