-- ==== Sys2Proof/Machine/Ops.lean ====
section
/-! DEFINITION. The named operations over memory, registers, call stack, framebuffer, keypad and timers, and taking a
fault. Instructions act on the state only through these. -/

namespace Sys2Proof.Machine

/-! ## Memory (20_memory.md) -/

/-- The glyphs of 93_implementation_defined.md G3, glyph k at index 5k .. 5k+4. -/
def defaultGlyphs : List Byte :=
  [0xF0, 0x90, 0x90, 0x90, 0xF0] ++ [0x20, 0x60, 0x20, 0x20, 0x70] ++ [0xF0, 0x10, 0xF0, 0x80, 0xF0] ++
  [0xF0, 0x10, 0xF0, 0x10, 0xF0] ++ [0x90, 0x90, 0xF0, 0x10, 0x10] ++ [0xF0, 0x80, 0xF0, 0x10, 0xF0] ++
  [0xF0, 0x80, 0xF0, 0x90, 0xF0] ++ [0xF0, 0x10, 0x20, 0x40, 0x40] ++ [0xF0, 0x90, 0xF0, 0x90, 0xF0] ++
  [0xF0, 0x90, 0xF0, 0x10, 0xF0] ++ [0xF0, 0x90, 0xF0, 0x90, 0x90] ++ [0xE0, 0x90, 0xE0, 0x90, 0xE0] ++
  [0xF0, 0x80, 0x80, 0x80, 0xF0] ++ [0xE0, 0x90, 0x90, 0x90, 0xE0] ++ [0xF0, 0x80, 0xF0, 0x80, 0xF0] ++
  [0xF0, 0x80, 0xF0, 0x80, 0x80]

/-- The default the spec gives the parameter FONT (D14, G3). PRESUMED (log 5). -/
def defaultFont : Config.Font := ⟨defaultGlyphs.toArray, rfl⟩

/-- What an unlisted address reads as: its value in `State.reset`, the default font at 0x000-0x04F and 0x00 elsewhere (R38,
R57). A memory with another font lists the bytes that differ. -/
def resetByte (a : Nat) : Byte := if h : a < 80 then defaultFont[a] else 0

/-- The byte listed for an address, if any. -/
def Memory.lookup (m : Memory) (a : Nat) : Option Byte :=
  match m with
  | [] => none
  | c :: rest => if c.1 = a then some c.2 else Memory.lookup rest a

/-- `memory[a]`. -/
def Memory.read (m : Memory) (a : Nat) : Byte := (Memory.lookup m a).getD (resetByte a)

/-- List `b` for address `a`, keeping the addresses rising. -/
def Memory.insert (m : Memory) (a : Nat) (b : Byte) : Memory :=
  match m with
  | [] => [(a, b)]
  | c :: rest =>
    if a < c.1 then (a, b) :: c :: rest
    else if a = c.1 then (a, b) :: rest
    else c :: Memory.insert rest a b

/-- Drop whatever is listed for address `a`. -/
def Memory.erase (m : Memory) (a : Nat) : Memory :=
  match m with
  | [] => []
  | c :: rest => if c.1 = a then Memory.erase rest a else c :: Memory.erase rest a

/-- `memory[a] <- b`, in canonical form: writing the reset byte lists nothing. -/
def Memory.write (m : Memory) (a : Nat) (b : Byte) : Memory :=
  if b = resetByte a then Memory.erase m a else Memory.insert m a b

/-- Bytes written at consecutive ascending addresses, with no range check: what load_rom does (R233). -/
def Memory.load (m : Memory) (a : Nat) (bytes : List Byte) : Memory :=
  match bytes with
  | [] => m
  | b :: rest => Memory.load (Memory.write m a b) (a + 1) rest

/-- The listed addresses rise strictly from `low` on, lie in memory, and list no reset byte. -/
def Memory.wfFrom (low : Nat) (m : Memory) : Bool :=
  match m with
  | [] => true
  | c :: rest =>
    decide (low ≤ c.1) && decide (c.1 < Config.memSize) && decide (c.2 ≠ resetByte c.1) && Memory.wfFrom (c.1 + 1) rest

/-- The canonical form of memory. -/
def Memory.wf (m : Memory) : Bool := Memory.wfFrom 0 m

/-- The address decoder on a read (R56): at or above 4096 it raises MemoryOutOfRange. -/
def memRead (m : Memory) (a : Nat) : Except FaultRecord Byte :=
  if Config.memSize ≤ a then .error ⟨.memoryOutOfRange, a⟩ else .ok (Memory.read m a)

/-- The address decoder on a write (R56). -/
def memWrite (m : Memory) (a : Nat) (b : Byte) : Except FaultRecord Memory :=
  if Config.memSize ≤ a then .error ⟨.memoryOutOfRange, a⟩ else .ok (Memory.write m a b)

/-- `n` byte reads at consecutive ascending addresses from `a` (R55); the first that is out of range is the lowest (D31). -/
def memReads (m : Memory) (a : Nat) (n : Nat) : Except FaultRecord (List Byte) :=
  match n with
  | 0 => .ok []
  | n + 1 =>
    match memRead m a with
    | .error f => .error f
    | .ok b =>
      match memReads m (a + 1) n with
      | .error f => .error f
      | .ok bs => .ok (b :: bs)

/-- Byte writes at consecutive ascending addresses from `a` (R55). If one is out of range, no memory results: the
instruction writes nothing (R56, R97). -/
def memWrites (m : Memory) (a : Nat) (bytes : List Byte) : Except FaultRecord Memory :=
  match bytes with
  | [] => .ok m
  | b :: bs =>
    match memWrite m a b with
    | .error f => .error f
    | .ok m' => memWrites m' (a + 1) bs

/-! ## Registers (10_state.md) -/

/-- `V[x]` (R10). -/
def readV (s : State) (x : Reg) : Byte := s.v[x]

/-- `V[x] <- b` (R10, R21: none is hardwired). -/
def writeV (x : Reg) (b : Byte) (s : State) : State := { s with v := s.v.set x b }

/-- `pc <- target`. -/
def jumpTo (target : Word) (s : State) : State := { s with pc := target }

/-- The default pc advance (R95): pc + 2, in 16 bits (R12). -/
def advance (s : State) : State := jumpTo (s.pc + 2) s

/-- The pc rule of the six skips (R95): pc + 4 if the condition holds, else pc + 2. -/
def skipIf (c : Bool) (s : State) : State := jumpTo (if c then s.pc + 4 else s.pc + 2) s

/-- `I <- w`. -/
def writeI (w : Word) (s : State) : State := { s with i := w }

/-- V[k], V[k+1], ... loaded with the given bytes (R165); there is no register past VF. -/
def loadRegs (v : Vector Byte 16) (k : Nat) (bytes : List Byte) : Vector Byte 16 :=
  match bytes with
  | [] => v
  | b :: bs => loadRegs (v.setIfInBounds k b) (k + 1) bs

/-! ## Call stack (10_state.md R26-R29) -/

/-- R27: StackOverflow(pc) if 16 entries are held; else the value goes to slot sp, and sp counts it. -/
def push (w : Word) (s : State) : Except FaultRecord State :=
  if h : s.sp.val < 16 then .ok { s with stack := s.stack.set s.sp.val w, sp := ⟨s.sp.val + 1, by omega⟩ }
  else .error ⟨.stackOverflow, s.pc.toNat⟩

/-- R28: StackUnderflow(pc) if none is held; else the value of the top slot, which keeps it (D24). -/
def pop (s : State) : Except FaultRecord (Word × State) :=
  if s.sp.val = 0 then .error ⟨.stackUnderflow, s.pc.toNat⟩
  else .ok (s.stack[s.sp.val - 1], { s with sp := ⟨s.sp.val - 1, by omega⟩ })

/-! ## Framebuffer (10_state.md R32, 41_display.md) -/

/-- `fb[r][c]`. -/
def pixel (fb : Framebuffer) (r : Fin 32) (c : Fin 64) : Bool := fb[r][c]

/-- `fb[r][c] <- b`. -/
def setPixel (fb : Framebuffer) (r : Fin 32) (c : Fin 64) (b : Bool) : Framebuffer := fb.set r (fb[r].set c b)

/-- All pixels 0 (R110). -/
def blankScreen : Framebuffer := Vector.replicate 32 (Vector.replicate 64 false)

/-- R112: the pixel row of sprite row i drawn from coordinate cy, modulo 32. -/
def wrapRow (cy i : Nat) : Fin 32 := ⟨(cy + i) % 32, Nat.mod_lt _ (by decide)⟩

/-- R112: the pixel column of sprite column j drawn from coordinate cx, modulo 64. -/
def wrapCol (cx j : Nat) : Fin 64 := ⟨(cx + j) % 64, Nat.mod_lt _ (by decide)⟩

/-- R111: `(row >> (7 - j)) & 1`, so that the most significant bit is the leftmost pixel. -/
def spriteBit (row : Byte) (j : Nat) : Bool := row.getLsbD (7 - j)

/-- A screen being drawn on, and the collision seen so far. -/
abbrev Canvas := Framebuffer × Bool

/-- The body of R111's loops: XOR one sprite bit into one pixel, and note a collision. -/
def drawBit (r : Fin 32) (c : Fin 64) (bit : Bool) (cv : Canvas) : Canvas :=
  (setPixel cv.1 r c (pixel cv.1 r c ^^ bit), cv.2 || (pixel cv.1 r c && bit))

/-- R111's inner loop over the columns listed. -/
def drawCols (cx : Nat) (r : Fin 32) (row : Byte) (cols : List Nat) (cv : Canvas) : Canvas :=
  match cols with
  | [] => cv
  | j :: js => drawCols cx r row js (drawBit r (wrapCol cx j) (spriteBit row j) cv)

/-- R111's outer loop: sprite rows i, i+1, ... -/
def drawRows (cx cy : Nat) (i : Nat) (rows : List Byte) (cv : Canvas) : Canvas :=
  match rows with
  | [] => cv
  | row :: rest => drawRows cx cy (i + 1) rest (drawCols cx (wrapRow cy i) row [0, 1, 2, 3, 4, 5, 6, 7] cv)

/-- R111: the sprite drawn at column cx and row cy, and whether any pixel collided. -/
def drawSprite (cx cy : Nat) (rows : List Byte) (fb : Framebuffer) : Canvas := drawRows cx cy 0 rows (fb, false)

/-- The framebuffer and dirty flag after an instruction that writes the screen; dirty is always set (R34). -/
def showScreen (fb : Framebuffer) (s : State) : State := { s with fb := fb, dirty := true }

/-! ## Keypad and timers (45_keys_timers.md, 40_cycle.md R98) -/

/-- R183's ascending scan from key k on: the last match wins. -/
def scanKeys (keys : List Bool) (k : Nat) (found : Option Nat) : Option Nat :=
  match keys with
  | [] => found
  | b :: rest => scanKeys rest (k + 1) (if b then some k else found)

/-- The key FX0A takes, the highest one pressed, if any (R183). -/
def pressedKey (s : State) : Option Nat := scanKeys s.keypad.toList 0 none

/-- R30: one step of a timer, down to 0 and held there. -/
def countDown (t : Byte) : Byte := if t = 0 then 0 else t - 1

/-- The timer step of R98. -/
def timerStep (s : State) : State := { s with dt := countDown s.dt, st := countDown s.st }

/-- The free random byte of an executed CXNN (R154), and the state in which it has been drawn (log 2). -/
def drawRandom (s : State) : Byte × State := (Config.randByte s.draws, { s with draws := s.draws + 1 })

/-! ## Faults (60_exceptions.md) -/

/-- Fault entry, R209: the latch takes the code and info; every other element is unchanged. -/
def raise (f : FaultRecord) (s : State) : State := { s with fault := some f }

/-- How an instruction ends (R94, R97): with all its writes, or with a fault taken from the state before it. -/
def complete (s : State) (r : Except FaultRecord State) : Host.Outcome State Fault Refusal :=
  match r with
  | .ok s' => .next s'
  | .error f => .next (raise f s)

end Sys2Proof.Machine
end

