-- ==== Sys2Proof/Machine/Flags.lean ====
section
/-! DEFINITION. Every flag computation: the results and VF flags of 43_alu.md R147-R151, the order of the two writes
(R146), the collision flag of DXYN (R111) and the overflow flag of FX1E (44_index_memory.md R161). -/

namespace Sys2Proof.Machine

/-- A flag as the byte VF takes: 1 or 0. -/
def flagByte (b : Bool) : Byte := if b then 1 else 0

/-- R147: the sum modulo 256, and 1 iff the sum before truncation exceeds 255. -/
def addWithCarry (a b : Byte) : Byte × Byte :=
  (BitVec.ofNat 8 ((a.toNat + b.toNat) % 256), flagByte (decide (a.toNat + b.toNat > 255)))

/-- R148 (and R150 with the operands swapped): a - b modulo 256, and 1 iff b <= a, no borrow. -/
def subNoBorrow (a b : Byte) : Byte × Byte :=
  (BitVec.ofNat 8 ((a.toNat + 256 - b.toNat) % 256), flagByte (decide (b.toNat ≤ a.toNat)))

/-- R149: the logical right shift by one, and the old bit 0. -/
def shiftRight (a : Byte) : Byte × Byte := (a >>> 1, a &&& 1)

/-- R151: the left shift by one modulo 256, and the old bit 7. -/
def shiftLeft (a : Byte) : Byte × Byte := (a <<< 1, (a >>> 7) &&& 1)

/-- R146: result to V[x] and flag to VF. The writes are independent unless x is F; then VF_WRITE_ORDER decides which of the
two VF ends with (D10). -/
def writeResultFlag (order : Config.VfWriteOrder) (x : Reg) (res flg : Byte) (s : State) : State :=
  if x = vF then
    match order with
    | .flagLast => writeV vF flg s
    | .resultLast => writeV vF res s
  else writeV vF flg (writeV x res s)

/-- The end of a flag-writing ALU instruction (R146): both writes, in this machine's order. -/
def writeAlu (x : Reg) (rf : Byte × Byte) (s : State) : State := writeResultFlag Config.vfWriteOrder x rf.1 rf.2 s

/-- R161: the two values of I_OVF_LIMIT. -/
def overflowLimit (l : Config.IOvfLimit) : Nat :=
  match l with
  | .memoryRange => 0x0FFF
  | .wordRange => 0xFFFF

/-- R161: I + V[x] as a natural number. -/
def indexSum (w : Word) (b : Byte) : Nat := w.toNat + b.toNat

/-- R161: 1 iff the sum exceeds I_OVF_LIMIT (D11). -/
def indexOverflow (l : Config.IOvfLimit) (w : Word) (b : Byte) : Byte := flagByte (decide (indexSum w b > overflowLimit l))

end Sys2Proof.Machine
end

