-- ==== Sys2Proof/Machine/Alu.lean ====
section
/-! DEFINITION. Register loads, byte arithmetic and logic, and the random byte, of 43_alu.md. -/

namespace Sys2Proof.Machine

/-- LD Vx, nn, R140. -/
def execLdVB (x : Reg) (nn : Byte) (s : State) : Host.Outcome State Fault Refusal := .next (advance (writeV x nn s))

/-- ADD Vx, nn, R141: modulo 256, no flag. -/
def execAddVB (x : Reg) (nn : Byte) (s : State) : Host.Outcome State Fault Refusal :=
  .next (advance (writeV x (readV s x + nn) s))

/-- LD Vx, Vy, R142. -/
def execLdVV (x y : Reg) (s : State) : Host.Outcome State Fault Refusal := .next (advance (writeV x (readV s y) s))

/-- OR Vx, Vy, R143. -/
def execOrVV (x y : Reg) (s : State) : Host.Outcome State Fault Refusal :=
  .next (advance (writeV x (readV s x ||| readV s y) s))

/-- AND Vx, Vy, R144. -/
def execAndVV (x y : Reg) (s : State) : Host.Outcome State Fault Refusal :=
  .next (advance (writeV x (readV s x &&& readV s y) s))

/-- XOR Vx, Vy, R145. -/
def execXorVV (x y : Reg) (s : State) : Host.Outcome State Fault Refusal :=
  .next (advance (writeV x (readV s x ^^^ readV s y) s))

/-- ADD Vx, Vy, R147. -/
def execAddVV (x y : Reg) (s : State) : Host.Outcome State Fault Refusal :=
  .next (advance (writeAlu x (addWithCarry (readV s x) (readV s y)) s))

/-- SUB Vx, Vy, R148. -/
def execSubVV (x y : Reg) (s : State) : Host.Outcome State Fault Refusal :=
  .next (advance (writeAlu x (subNoBorrow (readV s x) (readV s y)) s))

/-- SHR Vx, R149: y is ignored. -/
def execShrV (x _y : Reg) (s : State) : Host.Outcome State Fault Refusal :=
  .next (advance (writeAlu x (shiftRight (readV s x)) s))

/-- SUBN Vx, Vy, R150. -/
def execSubnVV (x y : Reg) (s : State) : Host.Outcome State Fault Refusal :=
  .next (advance (writeAlu x (subNoBorrow (readV s y) (readV s x)) s))

/-- SHL Vx, R151: y is ignored. -/
def execShlV (x _y : Reg) (s : State) : Host.Outcome State Fault Refusal :=
  .next (advance (writeAlu x (shiftLeft (readV s x)) s))

/-- RND Vx, nn, R155: the free byte of R154 under the mask. -/
def execRnd (x : Reg) (nn : Byte) (s : State) : Host.Outcome State Fault Refusal :=
  .next (advance (writeV x ((drawRandom s).1 &&& nn) (drawRandom s).2))

end Sys2Proof.Machine
end

