-- ==== Sys2Proof/Machine/Operands.lean ====
section
/-! DEFINITION. The operand forms: zero-extended immediates (30_encoding.md R72), the font address, the key index, and the
one data addressing mode, index-register indirect with ascending byte offset (44_index_memory.md R166). -/

namespace Sys2Proof.Machine

/-- `zext_16(nnn)` (R72). -/
def address (nnn : BitVec 12) : Word := nnn.setWidth 16

/-- The target of BNNN (R127): nnn plus V[0], not truncated. -/
def indexedTarget (nnn : BitVec 12) (s : State) : Word := address nnn + (readV s 0).setWidth 16

/-- The address of glyph b (R162): b times 5, b not masked. -/
def glyphAddress (b : Byte) : Word := b.setWidth 16 * 5

/-- The key named by a register (R180): KeyIndexOutOfRange(b) above 0xF (D8). -/
def keyState (b : Byte) (s : State) : Except FaultRecord Bool :=
  if h : b.toNat < 16 then .ok s.keypad[b.toNat] else .error ⟨.keyIndexOutOfRange, b.toNat⟩

/-- The n bytes at I, I+1, ..., addresses as natural numbers with no wrap (R55). -/
def readAtI (n : Nat) (s : State) : Except FaultRecord (List Byte) := memReads s.mem s.i.toNat n

/-- Bytes stored at I, I+1, ... (R55, R56). -/
def writeAtI (bytes : List Byte) (s : State) : Except FaultRecord State :=
  match memWrites s.mem s.i.toNat bytes with
  | .ok m => .ok { s with mem := m }
  | .error f => .error f

/-- The post-modification of FX55 and FX65 (R164, R165): I <- I + x + 1. -/
def advanceI (x : Reg) (s : State) : State := writeI (s.i + BitVec.ofNat 16 (x.val + 1)) s

/-- V[0] to V[x], the registers FX55 stores (R164). -/
def dumpedRegs (x : Reg) (s : State) : List Byte := s.v.toList.take (x.val + 1)

/-- The three decimal digits of a byte: hundreds, tens, units (R163). -/
def decimalDigits (b : Byte) : List Byte :=
  [BitVec.ofNat 8 (b.toNat / 100), BitVec.ofNat 8 (b.toNat / 10 % 10), BitVec.ofNat 8 (b.toNat % 10)]

end Sys2Proof.Machine
end

