-- ==== Sys2Proof/Machine/ControlFlow.lean ====
section
/-! DEFINITION. Return, jumps, call and the four register and immediate skips of 42_control_flow.md. -/

namespace Sys2Proof.Machine

/-- The effect of RET (R120): the popped value is the CALL's own address, so control goes to it plus 2 (R29). -/
def returnFrom (s : State) : Except FaultRecord State :=
  match pop s with
  | .error f => .error f
  | .ok (t, s') => .ok (jumpTo (t + 2) s')

/-- The effect of CALL (R122): push this CALL's own address (R29), then jump. -/
def callTo (nnn : BitVec 12) (s : State) : Except FaultRecord State :=
  match push s.pc s with
  | .error f => .error f
  | .ok s' => .ok (jumpTo (address nnn) s')

/-- RET, R120. -/
def execRet (s : State) : Host.Outcome State Fault Refusal := complete s (returnFrom s)

/-- JP nnn, R121. -/
def execJp (nnn : BitVec 12) (s : State) : Host.Outcome State Fault Refusal := .next (jumpTo (address nnn) s)

/-- CALL nnn, R122. -/
def execCall (nnn : BitVec 12) (s : State) : Host.Outcome State Fault Refusal := complete s (callTo nnn s)

/-- SE Vx, nn, R123. -/
def execSeVB (x : Reg) (nn : Byte) (s : State) : Host.Outcome State Fault Refusal :=
  .next (skipIf (decide (readV s x = nn)) s)

/-- SNE Vx, nn, R124. -/
def execSneVB (x : Reg) (nn : Byte) (s : State) : Host.Outcome State Fault Refusal :=
  .next (skipIf (decide (readV s x ≠ nn)) s)

/-- SE Vx, Vy, R125. -/
def execSeVV (x y : Reg) (s : State) : Host.Outcome State Fault Refusal :=
  .next (skipIf (decide (readV s x = readV s y)) s)

/-- SNE Vx, Vy, R126. -/
def execSneVV (x y : Reg) (s : State) : Host.Outcome State Fault Refusal :=
  .next (skipIf (decide (readV s x ≠ readV s y)) s)

/-- JP V0, nnn, R127. -/
def execJpV0 (nnn : BitVec 12) (s : State) : Host.Outcome State Fault Refusal := .next (jumpTo (indexedTarget nnn s) s)

end Sys2Proof.Machine
end

