-- ==== Sys2Proof/Machine/Display.lean ====
section
/-! DEFINITION. The display instructions of 41_display.md. -/

namespace Sys2Proof.Machine

/-- CLS, R110. -/
def execCls (s : State) : Host.Outcome State Fault Refusal := .next (advance (showScreen blankScreen s))

/-- R111 and R113: every sprite row is read before anything is written; coordinates are the values before the instruction. -/
def drawAt (x y : Reg) (n : Nat) (s : State) : Except FaultRecord State :=
  match readAtI n s with
  | .error f => .error f
  | .ok rows =>
    let cv := drawSprite (readV s x).toNat (readV s y).toNat rows s.fb
    .ok (advance (writeV vF (flagByte cv.2) (showScreen cv.1 s)))

/-- DRW Vx, Vy, n, R111. -/
def execDrw (x y : Reg) (n : Nat) (s : State) : Host.Outcome State Fault Refusal := complete s (drawAt x y n s)

end Sys2Proof.Machine
end

