-- ==== Sys2Proof/Machine/IndexMemory.lean ====
section
/-! DEFINITION. The index register and the memory transfers of 44_index_memory.md. -/

namespace Sys2Proof.Machine

/-- LD I, nnn, R160. -/
def execLdI (nnn : BitVec 12) (s : State) : Host.Outcome State Fault Refusal := .next (advance (writeI (address nnn) s))

/-- ADD I, Vx, R161: I modulo 65536 (D12), then VF takes the overflow flag, whatever x is. -/
def execAddIV (x : Reg) (s : State) : Host.Outcome State Fault Refusal :=
  .next (advance (writeV vF (indexOverflow Config.iOvfLimit s.i (readV s x))
    (writeI (BitVec.ofNat 16 (indexSum s.i (readV s x) % 65536)) s)))

/-- LD F, Vx, R162. -/
def execLdFV (x : Reg) (s : State) : Host.Outcome State Fault Refusal :=
  .next (advance (writeI (glyphAddress (readV s x)) s))

/-- The effect of LD B, Vx (R163): I is not changed. -/
def storeDigits (x : Reg) (s : State) : Except FaultRecord State :=
  match writeAtI (decimalDigits (readV s x)) s with
  | .error f => .error f
  | .ok s' => .ok (advance s')

/-- The effect of LD [I], Vx (R164). -/
def dumpRegs (x : Reg) (s : State) : Except FaultRecord State :=
  match writeAtI (dumpedRegs x s) s with
  | .error f => .error f
  | .ok s' => .ok (advance (advanceI x s'))

/-- The effect of LD Vx, [I] (R165). -/
def restoreRegs (x : Reg) (s : State) : Except FaultRecord State :=
  match readAtI (x.val + 1) s with
  | .error f => .error f
  | .ok bytes => .ok (advance (advanceI x { s with v := loadRegs s.v 0 bytes }))

/-- LD B, Vx, R163. -/
def execLdBV (x : Reg) (s : State) : Host.Outcome State Fault Refusal := complete s (storeDigits x s)

/-- LD [I], Vx, R164. -/
def execLdMV (x : Reg) (s : State) : Host.Outcome State Fault Refusal := complete s (dumpRegs x s)

/-- LD Vx, [I], R165. -/
def execLdVM (x : Reg) (s : State) : Host.Outcome State Fault Refusal := complete s (restoreRegs x s)

end Sys2Proof.Machine
end

