-- ==== Sys2Proof/Machine/KeysTimers.lean ====
section
/-! DEFINITION. The keypad and timer instructions of 45_keys_timers.md. -/

namespace Sys2Proof.Machine

/-- The effect of SKP (R180, `want` true) and SKNP (R181, `want` false): skip if the key is in the wanted state. -/
def skipOnKey (want : Bool) (x : Reg) (s : State) : Except FaultRecord State :=
  match keyState (readV s x) s with
  | .error f => .error f
  | .ok pressed => .ok (skipIf (decide (pressed = want)) s)

/-- SKP Vx, R180. -/
def execSkp (x : Reg) (s : State) : Host.Outcome State Fault Refusal := complete s (skipOnKey true x s)

/-- SKNP Vx, R181. -/
def execSknp (x : Reg) (s : State) : Host.Outcome State Fault Refusal := complete s (skipOnKey false x s)

/-- LD Vx, DT, R182: DT before this tick's timer step. -/
def execLdVDT (x : Reg) (s : State) : Host.Outcome State Fault Refusal := .next (advance (writeV x s.dt s))

/-- The effect of LD Vx, K (R183): the highest key pressed, or nothing, with pc unchanged, so that it runs again. -/
def takeKey (x : Reg) (s : State) : State :=
  match pressedKey s with
  | some k => advance (writeV x (BitVec.ofNat 8 k) s)
  | none => s

/-- LD Vx, K, R183. -/
def execLdVK (x : Reg) (s : State) : Host.Outcome State Fault Refusal := .next (takeKey x s)

/-- LD DT, Vx, R184; the timer step of the same tick follows (R98). -/
def execLdDTV (x : Reg) (s : State) : Host.Outcome State Fault Refusal := .next (advance { s with dt := readV s x })

/-- LD ST, Vx, R185; the timer step of the same tick follows (R98). -/
def execLdSTV (x : Reg) (s : State) : Host.Outcome State Fault Refusal := .next (advance { s with st := readV s x })

end Sys2Proof.Machine
end

