-- ==== Sys2Proof/Machine/Cycle.lean ====
section
/-! DEFINITION. The cycle of 40_cycle.md: fetch, decode, execute, timer step, and the tick's result. -/

namespace Sys2Proof.Machine

/-- Fetch, R91: FetchOutOfRange(pc) above 0x0FFE, else the big-endian opcode at pc. -/
def fetch (s : State) : Except FaultRecord Word :=
  if Config.lastFetch < s.pc.toNat then .error ⟨.fetchOutOfRange, s.pc.toNat⟩
  else .ok (opcodeOfBytes (Memory.read s.mem s.pc.toNat) (Memory.read s.mem (s.pc.toNat + 1)))

/-- Decode, R92 and R93: an unknown opcode raises UnknownOpcode(op). -/
def decodeOrRaise (op : Word) : Except FaultRecord Instr :=
  match decode op with
  | .ok i => .ok i
  | .error _ => .error ⟨.unknownOpcode, op.toNat⟩

/-- Fetch, then decode (the priority of R208). -/
def fetchDecode (s : State) : Except FaultRecord Instr :=
  match fetch s with
  | .error f => .error f
  | .ok op => decodeOrRaise op

/-- The end of a tick: the timer step runs unless the instruction raised a fault (R96, R97, R98). -/
def finishTick (s : State) : State := if s.fault.isNone then timerStep s else s

/-- One tick, R90. A latched fault is returned again and nothing changes (R100); every fault is taken by `raise` (R209). -/
def tick (s : State) : Host.Outcome State Fault Refusal :=
  match s.fault with
  | some _ => .next s
  | none =>
    match fetchDecode s with
    | .error f => .next (raise f s)
    | .ok i =>
      match exec i s with
      | .next s' => .next (finishTick s')
      | .fault r => .fault r
      | .refused r => .refused r

/-- What a tick that ends in this state returns to the host (R99, R100): Ok (`none`), or the fault. -/
def tickResult (after : State) : Option FaultRecord := after.fault

/-- The two bytes at pc replaced, with what a fetch needs for them to be fetched: a pc in the fetch range and no latched
fault (both hold after reset, and are then left as they are; log 7). -/
def placeAtPc (s : State) (bytes : Byte × Byte) : State :=
  let pc : Word := if Config.lastFetch < s.pc.toNat then BitVec.ofNat 16 Config.romBase else s.pc
  { s with
    mem := Memory.write (Memory.write s.mem pc.toNat bytes.1) (pc.toNat + 1) bytes.2
    pc := pc
    fault := none }

end Sys2Proof.Machine
end

