-- ==== Sys2Proof/Machine/Step.lean ====
section
/-! DEFINITION. The step of the machine is one tick (40_cycle.md R90). -/

namespace Sys2Proof.Machine

/-- One tick of the core. -/
def step (s : State) : Host.Outcome State Fault Refusal := tick s

/-- The state with the instruction of table bits `w` where the next tick fetches. -/
def State.withFetchWord (s : State) (nbits w : Nat) : State := placeAtPc s (tableBytes nbits w)

end Sys2Proof.Machine
end

