-- ==== Sys2Proof/OpcodeMap.lean ====
section
/-! DEFINITION. The opcode map of 30_encoding.md R77 as the table writes it: match and mask of each of the 34 rows, in its
order, and the row each instruction belongs to. The decoder follows R81; statements hold the two against each other. -/

namespace Sys2Proof

/-- One row of R77: an opcode matches it iff `op & mask = pat`. -/
structure OpcodeRow where
  pat : Word
  mask : Word
deriving DecidableEq, Repr

/-- "the test `(op & mask) = match`" (R77). -/
def OpcodeRow.matches (r : OpcodeRow) (op : Word) : Bool := decide (op &&& r.mask = r.pat)

/-- The rows 1 to 34 of R77. -/
def opcodeMap : List OpcodeRow :=
  [⟨0x00E0, 0xF0FF⟩, ⟨0x00EE, 0xF0FF⟩, ⟨0x1000, 0xF000⟩, ⟨0x2000, 0xF000⟩, ⟨0x3000, 0xF000⟩, ⟨0x4000, 0xF000⟩] ++
  [⟨0x5000, 0xF000⟩, ⟨0x6000, 0xF000⟩, ⟨0x7000, 0xF000⟩, ⟨0x8000, 0xF00F⟩, ⟨0x8001, 0xF00F⟩, ⟨0x8002, 0xF00F⟩] ++
  [⟨0x8003, 0xF00F⟩, ⟨0x8004, 0xF00F⟩, ⟨0x8005, 0xF00F⟩, ⟨0x8006, 0xF00F⟩, ⟨0x8007, 0xF00F⟩, ⟨0x800E, 0xF00F⟩] ++
  [⟨0x9000, 0xF000⟩, ⟨0xA000, 0xF000⟩, ⟨0xB000, 0xF000⟩, ⟨0xC000, 0xF000⟩, ⟨0xD000, 0xF000⟩, ⟨0xE09E, 0xF0FF⟩] ++
  [⟨0xE0A1, 0xF0FF⟩, ⟨0xF007, 0xF0FF⟩, ⟨0xF00A, 0xF0FF⟩, ⟨0xF015, 0xF0FF⟩, ⟨0xF018, 0xF0FF⟩, ⟨0xF01E, 0xF0FF⟩] ++
  [⟨0xF029, 0xF0FF⟩, ⟨0xF033, 0xF0FF⟩, ⟨0xF055, 0xF0FF⟩, ⟨0xF065, 0xF0FF⟩]

/-- The row of R77 an instruction belongs to. -/
def rowOf (i : Instr) : OpcodeRow :=
  match i with
  | .cls => ⟨0x00E0, 0xF0FF⟩
  | .ret => ⟨0x00EE, 0xF0FF⟩
  | .jp _ => ⟨0x1000, 0xF000⟩
  | .call _ => ⟨0x2000, 0xF000⟩
  | .seVB _ _ => ⟨0x3000, 0xF000⟩
  | .sneVB _ _ => ⟨0x4000, 0xF000⟩
  | .seVV _ _ => ⟨0x5000, 0xF000⟩
  | .ldVB _ _ => ⟨0x6000, 0xF000⟩
  | .addVB _ _ => ⟨0x7000, 0xF000⟩
  | .ldVV _ _ => ⟨0x8000, 0xF00F⟩
  | .orVV _ _ => ⟨0x8001, 0xF00F⟩
  | .andVV _ _ => ⟨0x8002, 0xF00F⟩
  | .xorVV _ _ => ⟨0x8003, 0xF00F⟩
  | .addVV _ _ => ⟨0x8004, 0xF00F⟩
  | .subVV _ _ => ⟨0x8005, 0xF00F⟩
  | .shrV _ _ => ⟨0x8006, 0xF00F⟩
  | .subnVV _ _ => ⟨0x8007, 0xF00F⟩
  | .shlV _ _ => ⟨0x800E, 0xF00F⟩
  | .sneVV _ _ => ⟨0x9000, 0xF000⟩
  | .ldI _ => ⟨0xA000, 0xF000⟩
  | .jpV0 _ => ⟨0xB000, 0xF000⟩
  | .rnd _ _ => ⟨0xC000, 0xF000⟩
  | .drw _ _ _ => ⟨0xD000, 0xF000⟩
  | .skp _ => ⟨0xE09E, 0xF0FF⟩
  | .sknp _ => ⟨0xE0A1, 0xF0FF⟩
  | .ldVDT _ => ⟨0xF007, 0xF0FF⟩
  | .ldVK _ => ⟨0xF00A, 0xF0FF⟩
  | .ldDTV _ => ⟨0xF015, 0xF0FF⟩
  | .ldSTV _ => ⟨0xF018, 0xF0FF⟩
  | .addIV _ => ⟨0xF01E, 0xF0FF⟩
  | .ldFV _ => ⟨0xF029, 0xF0FF⟩
  | .ldBV _ => ⟨0xF033, 0xF0FF⟩
  | .ldMV _ => ⟨0xF055, 0xF0FF⟩
  | .ldVM _ => ⟨0xF065, 0xF0FF⟩

/-- The bits of an opcode that its instruction's decoding examines: all but the x nibble of CLS and RET (R76) and the low
nibble of 5XYN and 9XYN (R75). -/
def examinedBits (i : Instr) : Word :=
  match i with
  | .cls | .ret => 0xF0FF
  | .seVV _ _ | .sneVV _ _ => 0xFFF0
  | .jp _ | .call _ | .seVB _ _ | .sneVB _ _ | .ldVB _ _ | .addVB _ _ | .ldVV _ _ | .orVV _ _ | .andVV _ _
  | .xorVV _ _ | .addVV _ _ | .subVV _ _ | .shrV _ _ | .subnVV _ _ | .shlV _ _ | .ldI _ | .jpV0 _ | .rnd _ _
  | .drw _ _ _ | .skp _ | .sknp _ | .ldVDT _ | .ldVK _ | .ldDTV _ | .ldSTV _ | .addIV _ | .ldFV _ | .ldBV _
  | .ldMV _ | .ldVM _ => 0xFFFF

end Sys2Proof
end

