-- ==== Sys2Proof/Machine/HostOps.lean ====
section
/-! DEFINITION. The host interface of 60_exceptions.md R215: everything the host may do to the core, each between ticks
(R61). FONT, a parameter of the machine (00_scope.md R7), is an argument of those that use it. -/

namespace Sys2Proof.Machine

/-- How load_rom can fail inside the core (R233, C3). -/
inductive RomError where
  /-- RomError::TooLarge: more than 3584 bytes. -/
  | tooLarge
deriving DecidableEq, Repr

/-- The operations of R215. -/
inductive HostOp where
  /-- `init(seed)`. -/
  | init (seed : Nat)
  /-- `load_rom(bytes)`; its init has a seed the spec leaves unspecified (D23). -/
  | loadRom (seed : Nat) (bytes : List Byte)
  /-- `tick`. -/
  | tick
  /-- keypad write: `keypad[k] <- b`. -/
  | writeKey (k : Reg) (b : Bool)
  /-- dirty clear. -/
  | clearDirty
  /-- framebuffer read. -/
  | readFramebuffer
deriving DecidableEq, Repr

/-- The state of R38 on a machine with the given FONT: memory is the font at address 0 and 0x00 elsewhere. -/
def State.resetFor (font : Config.Font) : State := { State.reset with mem := Memory.load State.reset.mem 0 font.toList }

/-- `init(seed)`, R231. The seed is ignored (D13), and the model's own index of the next random byte is kept, so that a
second run does not draw the first run's bytes (log 2). -/
def hostInit (font : Config.Font) (_seed : Nat) (s : State) : State := { State.resetFor font with draws := s.draws }

/-- `load_rom(bytes)`, R233: init, then the bytes at 0x200 unless they are too many. -/
def hostLoadRom (font : Config.Font) (seed : Nat) (bytes : List Byte) (s : State) : State × Option RomError :=
  let s' := hostInit font seed s
  if bytes.length > Config.romMax then (s', some .tooLarge)
  else ({ s' with mem := Memory.load s'.mem Config.romBase bytes }, none)

/-- Keypad write, R215. -/
def hostWriteKey (k : Reg) (b : Bool) (s : State) : State := { s with keypad := s.keypad.set k b }

/-- Dirty clear, R215. -/
def hostClearDirty (s : State) : State := { s with dirty := false }

/-- Framebuffer read, R215: the grid and the dirty flag; the state is unchanged. -/
def hostReadFramebuffer (s : State) : Framebuffer × Bool := (s.fb, s.dirty)

/-- The state after one operation of the host, on a machine with the given FONT. -/
def hostStep (font : Config.Font) (op : HostOp) (s : State) : Host.Outcome State Fault Refusal :=
  match op with
  | .init seed => .next (hostInit font seed s)
  | .loadRom seed bytes => .next (hostLoadRom font seed bytes s).1
  | .tick => step s
  | .writeKey k b => .next (hostWriteKey k b s)
  | .clearDirty => .next (hostClearDirty s)
  | .readFramebuffer => .next s

end Sys2Proof.Machine
end

