-- ==== Sys2Proof/Safety.lean ====
section
/-! DEFINITION. What counts as a good state and a safe run, the invariants of the machine, and the frames claims use. -/

namespace Sys2Proof.Machine

/-- R103: "a faulted state is never a good final state". -/
def Good (s : State) : Prop := s.fault = none

/-- k ticks, none of which returned a fault. -/
def SafeRun (k : Nat) (s t : State) : Prop := Host.Core.run Sys2Proof.core k s = .next t ∧ Good t

/-- The pc stays at or below 0x10FE, so that no pc + 2 wraps (R24). -/
def PcInReach (s : State) : Prop := s.pc.toNat ≤ 0x10FE

/-- Every entry held on the stack is the address of a CALL that was fetched, at most 0x0FFE (R29, R120). -/
def StackOfCalls (s : State) : Prop := ∀ k : Fin 16, k.val < s.sp.val → s.stack[k].toNat ≤ Config.lastFetch

/-- Every latched info value is below 2^17 (R35). -/
def InfoInRange (s : State) : Prop := ∀ f, s.fault = some f → f.info < 2 ^ 17

/-- The invariant of the machine. -/
structure Inv (s : State) : Prop where
  memory : Memory.wf s.mem = true
  pc : PcInReach s
  stack : StackOfCalls s
  info : InfoInRange s

/-- The info a fault latches agrees with the state it left unchanged (R201, R209). -/
def Explains (s : State) (f : FaultRecord) : Prop :=
  match f.code with
  | .unknownOpcode => ∃ op, fetch s = .ok op ∧ decode op = .error (.unknownOpcode op) ∧ f.info = op.toNat
  | .fetchOutOfRange => 0x0FFE < s.pc.toNat ∧ f.info = s.pc.toNat
  | .stackOverflow => s.sp = 16 ∧ f.info = s.pc.toNat
  | .stackUnderflow => s.sp = 0 ∧ f.info = s.pc.toNat
  | .memoryOutOfRange => f.info = max s.i.toNat 4096
  | .keyIndexOutOfRange => 16 ≤ f.info ∧ ∃ x, f.info = (readV s x).toNat

/-- A latched fault, if any, is explained by the state. -/
def FaultExplained (s : State) : Prop := ∀ f, s.fault = some f → Explains s f

/-- Every register but those of `w` is unchanged. -/
def RegsKeptBut (w : Reg → Prop) (s t : State) : Prop := ∀ r, ¬ w r → readV t r = readV s r

/-- Every byte of memory is unchanged. -/
def MemKept (s t : State) : Prop := ∀ a, Memory.read t.mem a = Memory.read s.mem a

/-- Every byte of memory outside the n bytes at `base` is unchanged. -/
def MemKeptOutside (base n : Nat) (s t : State) : Prop :=
  ∀ a, ¬ (base ≤ a ∧ a < base + n) → Memory.read t.mem a = Memory.read s.mem a

/-- The stack and its pointer are unchanged. -/
def StackKept (s t : State) : Prop := t.stack = s.stack ∧ t.sp = s.sp

/-- The timers are unchanged. -/
def TimersKept (s t : State) : Prop := t.dt = s.dt ∧ t.st = s.st

/-- Framebuffer and dirty flag are unchanged. -/
def ScreenKept (s t : State) : Prop := t.fb = s.fb ∧ t.dirty = s.dirty

/-- The keypad, the fault latch and the index of the next random byte are unchanged. -/
def InputsAndLatchKept (s t : State) : Prop := t.keypad = s.keypad ∧ t.fault = s.fault ∧ t.draws = s.draws

/-- All but the general registers, I, pc and memory is unchanged. -/
def DevicesKept (s t : State) : Prop := StackKept s t ∧ TimersKept s t ∧ ScreenKept s t ∧ InputsAndLatchKept s t

/-- All but the general registers and pc is unchanged. -/
def OnlyRegsAndPcChange (s t : State) : Prop := t.i = s.i ∧ MemKept s t ∧ DevicesKept s t

/-- All but pc is unchanged. -/
def OnlyPcChanges (s t : State) : Prop := RegsKeptBut (fun _ => False) s t ∧ OnlyRegsAndPcChange s t

/-- The outcome is the fault taken as R209 says: the latch written, every other element unchanged. -/
def FaultTaken (c : FaultCode) (info : Nat) (s : State) (o : Host.Outcome State Fault Refusal) : Prop :=
  o = .next { s with fault := some ⟨c, info⟩ }

/-- The n bytes at `base` all lie in memory (R56). -/
def InMemory (base n : Nat) : Prop := ∀ k, k < n → base + k < 4096

/-- `a` is the lowest address outside memory among the n at `base` (R56, D31). -/
def LowestOutside (base n a : Nat) : Prop := ∃ k, k < n ∧ a = base + k ∧ 4096 ≤ a ∧ ∀ j, j < k → base + j < 4096

/-- Every opcode that passes the match and mask test decodes to the instruction given (R77). -/
def Encodes (pat mask : Word) (f : Word → Instr) : Prop := ∀ op : Word, op &&& mask = pat → decode op = .ok (f op)

/-- The end of a flag-writing ALU instruction with result `res` and flag `flg` (R146): V[x] and VF take them, or, when x is
F, VF takes the one that VF_WRITE_ORDER writes last; all else but pc is unchanged, and pc advances by 2. -/
def AluResult (x : Reg) (res flg : Nat) (s t : State) : Prop :=
  (x ≠ vF → (readV t x).toNat = res ∧ (readV t vF).toNat = flg) ∧
  (x = vF → Config.vfWriteOrder = .flagLast → (readV t vF).toNat = flg) ∧
  (x = vF → Config.vfWriteOrder = .resultLast → (readV t vF).toNat = res) ∧
  RegsKeptBut (fun r => r = x ∨ r = vF) s t ∧ OnlyRegsAndPcChange s t ∧ t.pc = s.pc + 2

/-- The two writes of R146 one after the other, in the given order. -/
def writesInOrder (order : Config.VfWriteOrder) (x : Reg) (res flg : Byte) (s : State) : State :=
  match order with
  | .flagLast => writeV vF flg (writeV x res s)
  | .resultLast => writeV x res (writeV vF flg s)

/-- An instruction ends with the two writes of R146, of result `rf.1` and flag `rf.2`, in this machine's order, and pc
advanced by 2. -/
def EndsWithBothWrites (x : Reg) (rf : Byte × Byte) (i : Instr) (s : State) : Prop :=
  exec i s = .next { writesInOrder Config.vfWriteOrder x rf.1 rf.2 s with pc := s.pc + 2 }

/-- A fetch in state m that reads address `a` sees the byte of value `b` there: as the opcode's high byte when a is pc, and
as its low byte when a is pc + 1 (R53, R91). -/
def FetchSees (m : State) (a b : Nat) : Prop :=
  (m.pc.toNat = a → a ≤ 0x0FFE → ∃ op, fetch m = .ok op ∧ op.toNat / 256 = b) ∧
  (m.pc.toNat + 1 = a → a ≤ 0x0FFF → ∃ op, fetch m = .ok op ∧ op.toNat % 256 = b)

/-- Pixel (r, c) is under a 1 bit of the sprite of n rows at I drawn by DRW Vx, Vy, n in state s (R111, R112). -/
def SpriteOn (x y : Reg) (n : Nat) (s : State) (r : Fin 32) (c : Fin 64) : Prop :=
  ∃ i j, i < n ∧ j < 8 ∧ r.val = ((readV s y).toNat + i) % 32 ∧ c.val = ((readV s x).toNat + j) % 64 ∧
    (Memory.read s.mem (s.i.toNat + i)).getLsbD (7 - j) = true

/-- The pc rule of each instruction (R95), for an execution that takes no fault. -/
def PcRule (i : Instr) (s t : State) : Prop :=
  match i with
  | .ret => ∃ k : Fin 16, s.sp.val = k.val + 1 ∧ t.pc = s.stack[k] + 2
  | .jp nnn => t.pc.toNat = nnn.toNat
  | .call nnn => t.pc.toNat = nnn.toNat
  | .jpV0 nnn => t.pc.toNat = nnn.toNat + (readV s 0).toNat
  | .seVB x nn => t.pc = if readV s x = nn then s.pc + 4 else s.pc + 2
  | .sneVB x nn => t.pc = if readV s x = nn then s.pc + 2 else s.pc + 4
  | .seVV x y => t.pc = if readV s x = readV s y then s.pc + 4 else s.pc + 2
  | .sneVV x y => t.pc = if readV s x = readV s y then s.pc + 2 else s.pc + 4
  | .skp x => ∃ k : Fin 16, (readV s x).toNat = k.val ∧ t.pc = if s.keypad[k] then s.pc + 4 else s.pc + 2
  | .sknp x => ∃ k : Fin 16, (readV s x).toNat = k.val ∧ t.pc = if s.keypad[k] then s.pc + 2 else s.pc + 4
  | .ldVK _ => t.pc = if ∃ k : Fin 16, s.keypad[k] = true then s.pc + 2 else s.pc
  | .cls | .ldVB _ _ | .addVB _ _ | .ldVV _ _ | .orVV _ _ | .andVV _ _ | .xorVV _ _ | .addVV _ _ | .subVV _ _
  | .shrV _ _ | .subnVV _ _ | .shlV _ _ | .ldI _ | .rnd _ _ | .drw _ _ _ | .ldVDT _ | .ldDTV _ | .ldSTV _
  | .addIV _ | .ldFV _ | .ldBV _ | .ldMV _ | .ldVM _ => t.pc = s.pc + 2

/-- The general registers an instruction may write: its destination, and VF where the rule writes a flag (R22, R23). -/
def MayWrite (i : Instr) (r : Reg) : Prop :=
  match i with
  | .ldVB x _ | .addVB x _ | .ldVV x _ | .orVV x _ | .andVV x _ | .xorVV x _ | .rnd x _ | .ldVDT x | .ldVK x => r = x
  | .addVV x _ | .subVV x _ | .shrV x _ | .subnVV x _ | .shlV x _ => r = x ∨ r = vF
  | .drw _ _ _ | .addIV _ => r = vF
  | .ldVM x => r.val ≤ x.val
  | .cls | .ret | .jp _ | .call _ | .seVB _ _ | .sneVB _ _ | .seVV _ _ | .sneVV _ _ | .ldI _ | .jpV0 _ | .skp _ | .sknp _
  | .ldDTV _ | .ldSTV _ | .ldFV _ | .ldBV _ | .ldMV _ => False

/-- The value the timer step of a tick finds in DT: V[x] after FX15, else DT as it was (R98). -/
def delaySeen (i : Instr) (s : State) : Byte :=
  match i with
  | .ldDTV x => readV s x
  | _ => s.dt

/-- The value the timer step of a tick finds in ST: V[x] after FX18, else ST as it was (R98). -/
def soundSeen (i : Instr) (s : State) : Byte :=
  match i with
  | .ldSTV x => readV s x
  | _ => s.st

/-- The state after n more ticks that change nothing but the timers (R30, R98). -/
def timersAfter (n : Nat) (s : State) : State :=
  { s with dt := BitVec.ofNat 8 (s.dt.toNat - n), st := BitVec.ofNat 8 (s.st.toNat - n) }

/-- Two states that differ at most in stack slots at or above sp (R28). -/
def SameButDeadSlots (s s' : State) : Prop :=
  s' = { s with stack := s'.stack } ∧ ∀ k : Fin 16, k.val < s.sp.val → s'.stack[k] = s.stack[k]

end Sys2Proof.Machine
end

