-- ==== Sys2Proof/Certificates/Slice0/Obligations.lean ====
section
/-! DEFINITION. The statements for the provers, from the numbered rules of spec/. -/

open Sys2Proof Sys2Proof.Machine

/-! ## Decoding -/

/-- Decode and encode agree (30_encoding.md R77, R81): every well-formed instruction, with every operand value, survives. -/
def Obligations.DecodeOfEncodeIsTheInstruction : Prop :=
  ∀ i : Instr, i.wellFormed = true → decode (encode i) = .ok i

/-- The other direction: a known opcode is its instruction's canonical opcode in every bit the decoding examines; the
ignored bits are those of R75 and R76. -/
def Obligations.KnownOpcodeIsItsEncodingInExaminedBits : Prop :=
  ∀ (op : Word) (i : Instr), decode op = .ok i → i.wellFormed = true ∧ encode i = op &&& examinedBits i

/-- R77: 34 rows; exactly one matches a known opcode, its instruction's; an opcode that matches no row is unknown. All
patterns but three are the spec's decision D15 (log 13). -/
def Obligations.ExactlyOneRowMatchesAKnownOpcode : Prop :=
  opcodeMap.length = 34 ∧
  ∀ op : Word,
    (∀ i, decode op = .ok i → rowOf i ∈ opcodeMap ∧ ∀ r ∈ opcodeMap, (r.matches op = true ↔ r = rowOf i)) ∧
    ((∀ r ∈ opcodeMap, r.matches op = false) → decode op = .error (.unknownOpcode op)) ∧
    ((∃ r ∈ opcodeMap, r.matches op = true) → ∃ i, decode op = .ok i)

/-- The unknown opcodes, class by class, as R78 lists them; decoding answers nothing else but an instruction (R81). -/
def Obligations.UnknownOpcodesAreExactlyTheListed : Prop :=
  ∀ op : Word,
    (decode op = .error (.unknownOpcode op) ∨ ∃ i, decode op = .ok i) ∧
    (decode op = .error (.unknownOpcode op) ↔
      (opClass op = 0x0 ∧ ¬ opNN op ∈ ([0xE0, 0xEE] : List Byte)) ∨
      (opClass op = 0x8 ∧ opN op ∈ ([0x8, 0x9, 0xA, 0xB, 0xC, 0xD, 0xF] : List (BitVec 4))) ∨
      (opClass op = 0xE ∧ ¬ opNN op ∈ ([0x9E, 0xA1] : List Byte)) ∨
      (opClass op = 0xF ∧ ¬ opNN op ∈ ([0x07, 0x0A, 0x15, 0x18, 0x1E, 0x29, 0x33, 0x55, 0x65] : List Byte)))

/-- Words written out from the patterns of R77, one or more of every family, and the source's unknown word. -/
def Obligations.WrittenOutWordsDecode : Prop :=
  decode 0x00E0 = .ok .cls ∧ decode 0xD12F = .ok (.drw 1 2 15) ∧ decode 0x2ABC = .ok (.call 0xABC) ∧
  decode 0x9AB0 = .ok (.sneVV 10 11) ∧ decode 0x6A05 = .ok (.ldVB 10 5) ∧ decode 0x8127 = .ok (.subnVV 1 2) ∧
  decode 0xF265 = .ok (.ldVM 2) ∧ decode 0xE59E = .ok (.skp 5) ∧ decode 0xF318 = .ok (.ldSTV 3) ∧
  decode 0xFFFF = .error (.unknownOpcode 0xFFFF)

/-! ## The cycle -/

/-- A step runs the decoded instruction (R90, R91, R94, R96, R98): with no fault latched and the bytes at pc decoding to i,
the step is exec of i, and then, unless it took a fault, one timer step. Nothing is added to pc. -/
def Obligations.StepRunsTheDecodedInstruction : Prop :=
  ∀ (s t : State) (i : Instr), s.fault = none → s.pc.toNat ≤ 0x0FFE →
    decode (opcodeOfBytes (Memory.read s.mem s.pc.toNat) (Memory.read s.mem (s.pc.toNat + 1))) = .ok i →
    exec i s = .next t →
    (t.fault = none → ∃ u, step s = .next u ∧ u = { t with dt := u.dt, st := u.st } ∧
      u.dt.toNat = t.dt.toNat - 1 ∧ u.st.toNat = t.st.toNat - 1) ∧
    (t.fault ≠ none → step s = .next t)

/-- R91: a fetch reads the big-endian word at pc, odd or even, for pc in [0, 0x0FFE]; otherwise the tick takes
FetchOutOfRange(pc) and changes nothing else (the spec's decision D5). -/
def Obligations.FetchIsBigEndianAndRangeChecked : Prop :=
  ∀ s : State,
    (s.pc.toNat ≤ 0x0FFE → ∃ op, fetch s = .ok op ∧
      op.toNat = (Memory.read s.mem s.pc.toNat).toNat * 256 + (Memory.read s.mem (s.pc.toNat + 1)).toNat) ∧
    (s.fault = none → 0x0FFE < s.pc.toNat → FaultTaken .fetchOutOfRange s.pc.toNat s (step s))

/-- R93: an unknown opcode takes UnknownOpcode(op), pc is not advanced and no timer steps; 0xFFFF is one. -/
def Obligations.UnknownOpcodeIsTakenAsAFault : Prop :=
  (∀ (s : State) (op : Word) (e : DecodeError), s.fault = none → fetch s = .ok op → decode op = .error e →
    FaultTaken .unknownOpcode op.toNat s (step s)) ∧
  (∃ e, decode 0xFFFF = .error e)

/-- R100: with a fault latched, every later tick returns that fault and changes nothing, until init or load_rom
(the spec's decision D9). -/
def Obligations.LatchedFaultStopsEveryLaterTick : Prop :=
  ∀ (s : State) (f : FaultRecord), s.fault = some f →
    (∀ k, Host.Core.run core k s = .next s) ∧ tickResult s = some f ∧
    (∀ font seed, (hostInit font seed s).fault = none) ∧
    (∀ font seed bytes, (hostLoadRom font seed bytes s).1.fault = none)

/-- R97, R209: a faulting tick changes nothing but the latch, and that is what it returns. -/
def Obligations.FaultingTickChangesOnlyTheLatch : Prop :=
  ∀ s t : State, s.fault = none → step s = .next t → t.fault ≠ none →
    t = { s with fault := t.fault } ∧ tickResult t = t.fault

/-- R98: every successful tick steps each timer exactly once, on the value its instruction left; FX07 reads DT before; a
faulting tick steps neither. -/
def Obligations.SuccessfulTickStepsEachTimerOnce : Prop :=
  ∀ (s t : State), s.fault = none → step s = .next t →
    (t.fault = none → ∀ i, fetchDecode s = .ok i →
      (∃ u, exec i s = .next u ∧ t = { u with dt := t.dt, st := t.st }) ∧
      t.dt.toNat = (delaySeen i s).toNat - 1 ∧ t.st.toNat = (soundSeen i s).toNat - 1 ∧
      (∀ x, i = .ldVDT x → readV t x = s.dt)) ∧
    (t.fault ≠ none → TimersKept s t)

/-- R95: the pc rule of every instruction. -/
def Obligations.EveryInstructionFollowsItsPcRule : Prop :=
  ∀ (i : Instr) (s t : State), s.fault = none → exec i s = .next t → t.fault = none → PcRule i s t

/-! ## Invariants -/

/-- Every tick keeps the invariant: canonical memory, pc at most 0x10FE (R24), stacked CALL addresses at most 0x0FFE (R29,
R120), info below 2^17 (R35). -/
def Obligations.EveryTickKeepsTheInvariant : Prop :=
  ∀ s t : State, Inv s → step s = .next t → Inv t

/-- The invariants hold in the reset state, and after init with any FONT and seed, from any state. -/
def Obligations.InvariantsHoldAfterReset : Prop :=
  (Inv State.reset ∧ FaultExplained State.reset) ∧
  ∀ (font : Config.Font) (seed : Nat) (s : State), Inv (hostInit font seed s) ∧ FaultExplained (hostInit font seed s)

/-- Every operation of the host (R215) keeps the invariant too. -/
def Obligations.EveryHostOperationKeepsTheInvariant : Prop :=
  ∀ (font : Config.Font) (op : HostOp) (s t : State), Inv s → hostStep font op s = .next t → Inv t

/-- A latched fault stays explained by the state it left unchanged (R201, R209), whatever tick or host operation follows. -/
def Obligations.LatchedFaultStaysExplained : Prop :=
  ∀ (font : Config.Font) (op : HostOp) (s t : State), FaultExplained s → hostStep font op s = .next t → FaultExplained t

/-- The canonical form: memories that read the same everywhere are the same data. -/
def Obligations.MemoriesThatReadAlikeAreEqual : Prop :=
  ∀ m m' : Memory, Memory.wf m = true → Memory.wf m' = true → (∀ a, Memory.read m a = Memory.read m' a) → m = m'

/-! ## Whole-machine rules -/

/-- Who writes what (10_state.md R25, R26, R30-R34, 20_memory.md R51, R52): each store of the state is changed only by the
instructions the rules name, and dirty is never cleared. The last clause is about the model's own index (log 2). -/
def Obligations.EachStoreIsWrittenOnlyByItsInstructions : Prop :=
  ∀ (i : Instr) (s t : State), exec i s = .next t →
    t.keypad = s.keypad ∧
    (s.dirty = true → t.dirty = true) ∧
    (i ≠ .ret → (∀ nnn, i ≠ .call nnn) → StackKept s t) ∧
    (i ≠ .cls → (∀ x y n, i ≠ .drw x y n) → ScreenKept s t) ∧
    ((∀ x, i ≠ .ldBV x) → (∀ x, i ≠ .ldMV x) → MemKept s t) ∧
    ((∀ x, i ≠ .ldDTV x) → t.dt = s.dt) ∧
    ((∀ x, i ≠ .ldSTV x) → t.st = s.st) ∧
    ((∀ nnn, i ≠ .ldI nnn) → (∀ x, i ≠ .addIV x) → (∀ x, i ≠ .ldFV x) → (∀ x, i ≠ .ldMV x) → (∀ x, i ≠ .ldVM x) →
      t.i = s.i) ∧
    ((∀ x nn, i ≠ .rnd x nn) → t.draws = s.draws)

/-- R22, R23: a general register, VF among them, is written only as a destination or as the flag of a flag writer. -/
def Obligations.RegistersAreWrittenOnlyAsListed : Prop :=
  ∀ (i : Instr) (s t : State) (r : Reg), exec i s = .next t → ¬ MayWrite i r → readV t r = readV s r

/-- "no instruction reads it" (10_state.md R31): an instruction's effect on all else does not depend on ST. -/
def Obligations.NoInstructionReadsTheSoundTimer : Prop :=
  ∀ (i : Instr) (s t : State) (b : Byte), exec i s = .next t →
    ∃ t', exec i { s with st := b } = .next t' ∧ { t' with st := t.st } = t

/-- R154: CXNN uses the random byte and no other instruction reads it; said of the model's index of that byte (log 2). -/
def Obligations.OnlyRndReadsTheRandomByte : Prop :=
  ∀ (i : Instr) (s t : State) (d : Nat), (∀ x nn, i ≠ .rnd x nn) → exec i s = .next t →
    exec i { s with draws := d } = .next { t with draws := d }

/-- "no rule reads a slot at or above sp" (R28): two states that differ only there run alike, tick by tick. -/
def Obligations.PoppedStackSlotsAreNeverSeen : Prop :=
  ∀ s s' t : State, SameButDeadSlots s s' → step s = .next t → ∃ t', step s' = .next t' ∧ SameButDeadSlots t t'

/-! ## Display -/

/-- R110: CLS. -/
def Obligations.ClsBlanksTheScreenAndSetsDirty : Prop :=
  Encodes 0x00E0 0xF0FF (fun _ => .cls) ∧
  ∀ s : State, ∃ t, exec .cls s = .next t ∧ (∀ r c, pixel t.fb r c = false) ∧ t.dirty = true ∧ t.pc = s.pc + 2 ∧
    RegsKeptBut (fun _ => False) s t ∧ t.i = s.i ∧ MemKept s t ∧ StackKept s t ∧ TimersKept s t ∧ InputsAndLatchKept s t

/-- R111, R112, R113: DRW flips exactly the pixels under the sprite's 1 bits, wrapped; VF is 1 iff one of them was on; dirty
is set; a row outside memory is a fault with no other change. R112 and R113 spell this out; their inferences are the spec's. -/
def Obligations.DrwXorsTheSpriteAndReportsCollision : Prop :=
  Encodes 0xD000 0xF000 (fun op => .drw (opX op) (opY op) (opN op).toNat) ∧
  ∀ (x y : Reg) (n : Nat) (s : State), n < 16 →
    (InMemory s.i.toNat n → ∃ t, exec (.drw x y n) s = .next t ∧
      (∀ r c, SpriteOn x y n s r c → pixel t.fb r c = !pixel s.fb r c) ∧
      (∀ r c, ¬ SpriteOn x y n s r c → pixel t.fb r c = pixel s.fb r c) ∧
      ((∃ r c, SpriteOn x y n s r c ∧ pixel s.fb r c = true) → readV t vF = 1) ∧
      ((¬ ∃ r c, SpriteOn x y n s r c ∧ pixel s.fb r c = true) → readV t vF = 0) ∧
      t.dirty = true ∧ t.pc = s.pc + 2 ∧ RegsKeptBut (fun r => r = vF) s t ∧ t.i = s.i ∧ MemKept s t ∧
      StackKept s t ∧ TimersKept s t ∧ InputsAndLatchKept s t) ∧
    (∀ a, LowestOutside s.i.toNat n a → FaultTaken .memoryOutOfRange a s (exec (.drw x y n) s))

/-- R114: the identical sprite drawn twice, with neither coordinate register VF and I and the sprite bytes unchanged in
between (the spec's precondition, C7), restores every pixel; the second collision flag is 1 iff the first draw turned some pixel on. -/
def Obligations.DrawingTwiceRestoresTheScreen : Prop :=
  ∀ (x y : Reg) (n : Nat) (s t m u : State), n < 16 → x ≠ vF → y ≠ vF → InMemory s.i.toNat n →
    exec (.drw x y n) s = .next t →
    m.fb = t.fb → readV m x = readV s x → readV m y = readV s y → m.i = s.i →
    (∀ k, k < n → Memory.read m.mem (s.i.toNat + k) = Memory.read s.mem (s.i.toNat + k)) →
    exec (.drw x y n) m = .next u →
    (∀ r c, pixel u.fb r c = pixel s.fb r c) ∧
    (readV u vF = 1 ↔ ∃ r c, pixel s.fb r c = false ∧ pixel t.fb r c = true) ∧ (readV u vF = 1 ∨ readV u vF = 0)

/-! ## Control flow -/

/-- R120: RET. -/
def Obligations.RetResumesAfterTheCall : Prop :=
  Encodes 0x00EE 0xF0FF (fun _ => .ret) ∧
  ∀ s : State,
    (s.sp = 0 → FaultTaken .stackUnderflow s.pc.toNat s (exec .ret s)) ∧
    (∀ k : Fin 16, s.sp.val = k.val + 1 → ∃ t, exec .ret s = .next t ∧ t.pc = s.stack[k] + 2 ∧ t.sp.val = k.val ∧
      t.stack = s.stack ∧ RegsKeptBut (fun _ => False) s t ∧ t.i = s.i ∧ MemKept s t ∧ TimersKept s t ∧ ScreenKept s t ∧
      InputsAndLatchKept s t)

/-- R121: JP nnn. -/
def Obligations.JpSetsPc : Prop :=
  Encodes 0x1000 0xF000 (fun op => .jp (opNNN op)) ∧
  ∀ (nnn : BitVec 12) (s : State), ∃ t, exec (.jp nnn) s = .next t ∧ t.pc.toNat = nnn.toNat ∧ OnlyPcChanges s t

/-- R122: CALL nnn; with 16 entries held it overflows. -/
def Obligations.CallPushesItsOwnAddress : Prop :=
  Encodes 0x2000 0xF000 (fun op => .call (opNNN op)) ∧
  ∀ (nnn : BitVec 12) (s : State),
    (s.sp = 16 → FaultTaken .stackOverflow s.pc.toNat s (exec (.call nnn) s)) ∧
    (∀ k : Fin 16, s.sp.val = k.val → ∃ t, exec (.call nnn) s = .next t ∧ t.pc.toNat = nnn.toNat ∧
      t.sp.val = k.val + 1 ∧ t.stack[k] = s.pc ∧ (∀ j : Fin 16, j ≠ k → t.stack[j] = s.stack[j]) ∧
      RegsKeptBut (fun _ => False) s t ∧ t.i = s.i ∧ MemKept s t ∧ TimersKept s t ∧ ScreenKept s t ∧
      InputsAndLatchKept s t)

/-- R29: CALL pushes its own address, and a RET that finds the stack as a CALL left it goes to that value plus 2, with sp as
before the CALL. -/
def Obligations.RetUndoesCall : Prop :=
  ∀ (nnn : BitVec 12) (s t m : State), s.sp.val < 16 → exec (.call nnn) s = .next t → m.stack = t.stack → m.sp = t.sp →
    (∀ k : Fin 16, s.sp.val = k.val → t.stack[k] = s.pc) ∧
    ∃ u, exec .ret m = .next u ∧ u.pc = s.pc + 2 ∧ u.sp = s.sp

/-- R123, R124: the skips on an immediate. -/
def Obligations.ImmediateSkipsCompareVxWithNn : Prop :=
  Encodes 0x3000 0xF000 (fun op => .seVB (opX op) (opNN op)) ∧
  Encodes 0x4000 0xF000 (fun op => .sneVB (opX op) (opNN op)) ∧
  ∀ (x : Reg) (nn : Byte) (s : State),
    (∃ t, exec (.seVB x nn) s = .next t ∧ (readV s x = nn → t.pc = s.pc + 4) ∧ (readV s x ≠ nn → t.pc = s.pc + 2) ∧
      OnlyPcChanges s t) ∧
    (∃ t, exec (.sneVB x nn) s = .next t ∧ (readV s x ≠ nn → t.pc = s.pc + 4) ∧ (readV s x = nn → t.pc = s.pc + 2) ∧
      OnlyPcChanges s t)

/-- R125, R126: the skips on two registers, whatever the low nibble (the spec's decision D18); x = y always
skips, or never. -/
def Obligations.RegisterSkipsCompareVxWithVy : Prop :=
  Encodes 0x5000 0xF000 (fun op => .seVV (opX op) (opY op)) ∧
  Encodes 0x9000 0xF000 (fun op => .sneVV (opX op) (opY op)) ∧
  ∀ (x y : Reg) (s : State),
    (∃ t, exec (.seVV x y) s = .next t ∧ (readV s x = readV s y → t.pc = s.pc + 4) ∧
      (readV s x ≠ readV s y → t.pc = s.pc + 2) ∧ OnlyPcChanges s t) ∧
    (∃ t, exec (.sneVV x y) s = .next t ∧ (readV s x ≠ readV s y → t.pc = s.pc + 4) ∧
      (readV s x = readV s y → t.pc = s.pc + 2) ∧ OnlyPcChanges s t)

/-- R127: JP V0, nnn; the sum is not reduced. -/
def Obligations.IndexedJumpAddsV0 : Prop :=
  Encodes 0xB000 0xF000 (fun op => .jpV0 (opNNN op)) ∧
  ∀ (nnn : BitVec 12) (s : State), ∃ t, exec (.jpV0 nnn) s = .next t ∧ t.pc.toNat = nnn.toNat + (readV s 0).toNat ∧
    OnlyPcChanges s t

/-- R121: a jump to its own address loops for ever, changing only the timers. -/
def Obligations.JumpToItselfChangesOnlyTheTimers : Prop :=
  ∀ (n : Nat) (s : State) (nnn : BitVec 12), s.fault = none → fetchDecode s = .ok (.jp nnn) → nnn.toNat = s.pc.toNat →
    Host.Core.run core n s = .next (timersAfter n s)

/-! ## Registers and ALU -/

/-- R140, R141: LD Vx, nn and ADD Vx, nn; no carry is recorded. VF may be the destination (the spec's decision D22). -/
def Obligations.LoadAndAddImmediate : Prop :=
  Encodes 0x6000 0xF000 (fun op => .ldVB (opX op) (opNN op)) ∧
  Encodes 0x7000 0xF000 (fun op => .addVB (opX op) (opNN op)) ∧
  ∀ (x : Reg) (nn : Byte) (s : State),
    (∃ t, exec (.ldVB x nn) s = .next t ∧ readV t x = nn ∧ RegsKeptBut (fun r => r = x) s t ∧
      OnlyRegsAndPcChange s t ∧ t.pc = s.pc + 2) ∧
    (∃ t, exec (.addVB x nn) s = .next t ∧ (readV t x).toNat = ((readV s x).toNat + nn.toNat) % 256 ∧
      RegsKeptBut (fun r => r = x) s t ∧ OnlyRegsAndPcChange s t ∧ t.pc = s.pc + 2)

/-- R142, R143, R144, R145: register copy and the bitwise instructions, bit by bit; VF only as destination. -/
def Obligations.CopyAndBitwiseInstructions : Prop :=
  Encodes 0x8000 0xF00F (fun op => .ldVV (opX op) (opY op)) ∧ Encodes 0x8001 0xF00F (fun op => .orVV (opX op) (opY op)) ∧
  Encodes 0x8002 0xF00F (fun op => .andVV (opX op) (opY op)) ∧
  Encodes 0x8003 0xF00F (fun op => .xorVV (opX op) (opY op)) ∧
  ∀ (x y : Reg) (s : State),
    (∃ t, exec (.ldVV x y) s = .next t ∧ readV t x = readV s y ∧ RegsKeptBut (fun r => r = x) s t ∧
      OnlyRegsAndPcChange s t ∧ t.pc = s.pc + 2) ∧
    (∃ t, exec (.orVV x y) s = .next t ∧
      (∀ k, k < 8 → (readV t x).getLsbD k = ((readV s x).getLsbD k || (readV s y).getLsbD k)) ∧
      RegsKeptBut (fun r => r = x) s t ∧ OnlyRegsAndPcChange s t ∧ t.pc = s.pc + 2) ∧
    (∃ t, exec (.andVV x y) s = .next t ∧
      (∀ k, k < 8 → (readV t x).getLsbD k = ((readV s x).getLsbD k && (readV s y).getLsbD k)) ∧
      RegsKeptBut (fun r => r = x) s t ∧ OnlyRegsAndPcChange s t ∧ t.pc = s.pc + 2) ∧
    (∃ t, exec (.xorVV x y) s = .next t ∧
      (∀ k, k < 8 → (readV t x).getLsbD k = ((readV s x).getLsbD k ^^ (readV s y).getLsbD k)) ∧
      RegsKeptBut (fun r => r = x) s t ∧ OnlyRegsAndPcChange s t ∧ t.pc = s.pc + 2)

/-- R146: the five flag writers end with the write of their result and of their flag, in VF_WRITE_ORDER; the machine's own
operation is those two writes in either order; when x is not F the order does not matter, and when x is F, VF ends as the flag
(FLAG_LAST) or as the result (RESULT_LAST). -/
def Obligations.FlagAndResultAreWrittenInOrder : Prop :=
  (∀ (x y : Reg) (s : State),
    EndsWithBothWrites x (addWithCarry (readV s x) (readV s y)) (.addVV x y) s ∧
    EndsWithBothWrites x (subNoBorrow (readV s x) (readV s y)) (.subVV x y) s ∧
    EndsWithBothWrites x (shiftRight (readV s x)) (.shrV x y) s ∧
    EndsWithBothWrites x (subNoBorrow (readV s y) (readV s x)) (.subnVV x y) s ∧
    EndsWithBothWrites x (shiftLeft (readV s x)) (.shlV x y) s) ∧
  (∀ (order : Config.VfWriteOrder) (x : Reg) (res flg : Byte) (s : State),
    writeResultFlag order x res flg s = writesInOrder order x res flg s) ∧
  (∀ (x : Reg) (res flg : Byte) (s : State),
    (x ≠ vF → writesInOrder .flagLast x res flg s = writesInOrder .resultLast x res flg s) ∧
    readV (writesInOrder .flagLast vF res flg s) vF = flg ∧ readV (writesInOrder .resultLast vF res flg s) vF = res)

/-- R147: ADD Vx, Vy, with the carry in VF. -/
def Obligations.AddSetsCarry : Prop :=
  Encodes 0x8004 0xF00F (fun op => .addVV (opX op) (opY op)) ∧
  ∀ (x y : Reg) (s : State), ∃ t, exec (.addVV x y) s = .next t ∧
    AluResult x (((readV s x).toNat + (readV s y).toNat) % 256)
      (if (readV s x).toNat + (readV s y).toNat > 255 then 1 else 0) s t

/-- R148, R150: SUB Vx, Vy and its inverse form SUBN, with no-borrow in VF, the equal case included. -/
def Obligations.SubtractSetsNoBorrow : Prop :=
  Encodes 0x8005 0xF00F (fun op => .subVV (opX op) (opY op)) ∧
  Encodes 0x8007 0xF00F (fun op => .subnVV (opX op) (opY op)) ∧
  ∀ (x y : Reg) (s : State),
    (∃ t, exec (.subVV x y) s = .next t ∧
      AluResult x (((readV s x).toNat + 256 - (readV s y).toNat) % 256)
        (if (readV s y).toNat ≤ (readV s x).toNat then 1 else 0) s t) ∧
    (∃ t, exec (.subnVV x y) s = .next t ∧
      AluResult x (((readV s y).toNat + 256 - (readV s x).toNat) % 256)
        (if (readV s x).toNat ≤ (readV s y).toNat then 1 else 0) s t)

/-- R149, R151: SHR Vx and SHL Vx shift V[x] by one, whatever y is, with the bit shifted out in VF. -/
def Obligations.ShiftsCatchTheBitShiftedOut : Prop :=
  Encodes 0x8006 0xF00F (fun op => .shrV (opX op) (opY op)) ∧
  Encodes 0x800E 0xF00F (fun op => .shlV (opX op) (opY op)) ∧
  ∀ (x y : Reg) (s : State),
    (∃ t, exec (.shrV x y) s = .next t ∧ AluResult x ((readV s x).toNat / 2) ((readV s x).toNat % 2) s t) ∧
    (∃ t, exec (.shlV x y) s = .next t ∧ AluResult x ((readV s x).toNat * 2 % 256) ((readV s x).toNat / 128) s t)

/-- R155: RND Vx, nn takes the free byte under the mask nn, for every value of that byte. The index of the byte, `draws`, is
the model's own choice and no rule of the spec (log 2). -/
def Obligations.RndMasksTheFreeByte : Prop :=
  Encodes 0xC000 0xF000 (fun op => .rnd (opX op) (opNN op)) ∧
  ∀ (x : Reg) (nn : Byte) (s : State), ∃ t, exec (.rnd x nn) s = .next t ∧
    (∀ k, k < 8 → (readV t x).getLsbD k = ((Config.randByte s.draws).getLsbD k && nn.getLsbD k)) ∧
    (nn = 0 → readV t x = 0) ∧ (nn = 0xFF → readV t x = Config.randByte s.draws) ∧
    RegsKeptBut (fun r => r = x) s t ∧ t.i = s.i ∧ MemKept s t ∧ StackKept s t ∧ TimersKept s t ∧ ScreenKept s t ∧
    t.keypad = s.keypad ∧ t.fault = s.fault ∧ t.draws = s.draws + 1 ∧ t.pc = s.pc + 2

/-! ## Index register and memory -/

/-- R160, R162: LD I, nnn and LD F, Vx; V[x] is not masked. -/
def Obligations.LoadIndexAndGlyphAddress : Prop :=
  Encodes 0xA000 0xF000 (fun op => .ldI (opNNN op)) ∧ Encodes 0xF029 0xF0FF (fun op => .ldFV (opX op)) ∧
  (∀ (nnn : BitVec 12) (s : State), ∃ t, exec (.ldI nnn) s = .next t ∧ t.i.toNat = nnn.toNat ∧ t.pc = s.pc + 2 ∧
    RegsKeptBut (fun _ => False) s t ∧ MemKept s t ∧ DevicesKept s t) ∧
  (∀ (x : Reg) (s : State), ∃ t, exec (.ldFV x) s = .next t ∧ t.i.toNat = (readV s x).toNat * 5 ∧ t.pc = s.pc + 2 ∧
    RegsKeptBut (fun _ => False) s t ∧ MemKept s t ∧ DevicesKept s t)

/-- R161: ADD I, Vx, modulo 65536, with VF reporting a sum above I_OVF_LIMIT, whichever value that parameter has. -/
def Obligations.AddToIndexSetsOverflow : Prop :=
  Encodes 0xF01E 0xF0FF (fun op => .addIV (opX op)) ∧
  ∀ (x : Reg) (s : State), ∃ t, exec (.addIV x) s = .next t ∧
    t.i.toNat = (s.i.toNat + (readV s x).toNat) % 65536 ∧
    (Config.iOvfLimit = .memoryRange →
      (readV t vF).toNat = if s.i.toNat + (readV s x).toNat > 0x0FFF then 1 else 0) ∧
    (Config.iOvfLimit = .wordRange →
      (readV t vF).toNat = if s.i.toNat + (readV s x).toNat > 0xFFFF then 1 else 0) ∧
    RegsKeptBut (fun r => r = vF) s t ∧ MemKept s t ∧ DevicesKept s t ∧ t.pc = s.pc + 2

/-- R163: LD B, Vx stores the three decimal digits at I, I+1, I+2; outside memory it is a fault and stores nothing. -/
def Obligations.BcdStoresThreeDigits : Prop :=
  Encodes 0xF033 0xF0FF (fun op => .ldBV (opX op)) ∧
  ∀ (x : Reg) (s : State),
    (InMemory s.i.toNat 3 → ∃ t, exec (.ldBV x) s = .next t ∧
      (Memory.read t.mem s.i.toNat).toNat = (readV s x).toNat / 100 ∧
      (Memory.read t.mem (s.i.toNat + 1)).toNat = (readV s x).toNat / 10 % 10 ∧
      (Memory.read t.mem (s.i.toNat + 2)).toNat = (readV s x).toNat % 10 ∧
      MemKeptOutside s.i.toNat 3 s t ∧ RegsKeptBut (fun _ => False) s t ∧ t.i = s.i ∧ DevicesKept s t ∧
      t.pc = s.pc + 2) ∧
    (∀ a, LowestOutside s.i.toNat 3 a → FaultTaken .memoryOutOfRange a s (exec (.ldBV x) s))

/-- R164: LD [I], Vx stores V0..Vx at I on and adds x + 1 to I; outside memory it is a fault and nothing changes. -/
def Obligations.RegisterDumpStoresV0ToVx : Prop :=
  Encodes 0xF055 0xF0FF (fun op => .ldMV (opX op)) ∧
  ∀ (x : Reg) (s : State),
    (InMemory s.i.toNat (x.val + 1) → ∃ t, exec (.ldMV x) s = .next t ∧
      (∀ k : Reg, k.val ≤ x.val → Memory.read t.mem (s.i.toNat + k.val) = readV s k) ∧
      MemKeptOutside s.i.toNat (x.val + 1) s t ∧ t.i.toNat = s.i.toNat + x.val + 1 ∧
      RegsKeptBut (fun _ => False) s t ∧ DevicesKept s t ∧ t.pc = s.pc + 2) ∧
    (∀ a, LowestOutside s.i.toNat (x.val + 1) a → FaultTaken .memoryOutOfRange a s (exec (.ldMV x) s))

/-- R165: LD Vx, [I] loads V0..Vx from I on and adds x + 1 to I; outside memory it is a fault and nothing changes. Its law: a
dump, then a load from the same I, with whatever registers in between, restores V0..Vx, and I moves by x + 1 each time. -/
def Obligations.RegisterLoadReadsV0ToVx : Prop :=
  Encodes 0xF065 0xF0FF (fun op => .ldVM (opX op)) ∧
  (∀ (x : Reg) (s t m : State), InMemory s.i.toNat (x.val + 1) → exec (.ldMV x) s = .next t → MemKept t m → m.i = s.i →
    ∃ u, exec (.ldVM x) m = .next u ∧ (∀ k : Reg, k.val ≤ x.val → readV u k = readV s k) ∧
      t.i.toNat = s.i.toNat + x.val + 1 ∧ u.i.toNat = m.i.toNat + x.val + 1) ∧
  ∀ (x : Reg) (s : State),
    (InMemory s.i.toNat (x.val + 1) → ∃ t, exec (.ldVM x) s = .next t ∧
      (∀ k : Reg, k.val ≤ x.val → readV t k = Memory.read s.mem (s.i.toNat + k.val)) ∧
      RegsKeptBut (fun r => r.val ≤ x.val) s t ∧ t.i.toNat = s.i.toNat + x.val + 1 ∧
      MemKept s t ∧ DevicesKept s t ∧ t.pc = s.pc + 2) ∧
    (∀ a, LowestOutside s.i.toNat (x.val + 1) a → FaultTaken .memoryOutOfRange a s (exec (.ldVM x) s))

/-- R63 (the spec's inference): a byte stored by FX55 or FX33 is what a later fetch of its address reads, as the high byte or
the low byte of the opcode. -/
def Obligations.StoredBytesAreFetched : Prop :=
  ∀ (x : Reg) (s t m : State), MemKept t m →
    (InMemory s.i.toNat (x.val + 1) → exec (.ldMV x) s = .next t →
      ∀ k : Reg, k.val ≤ x.val → FetchSees m (s.i.toNat + k.val) (readV s k).toNat) ∧
    (InMemory s.i.toNat 3 → exec (.ldBV x) s = .next t →
      FetchSees m s.i.toNat ((readV s x).toNat / 100) ∧ FetchSees m (s.i.toNat + 1) ((readV s x).toNat / 10 % 10) ∧
      FetchSees m (s.i.toNat + 2) ((readV s x).toNat % 10))

/-! ## Keypad and timers -/

/-- R180, R181: the key skips; a key index above 15 is a fault (the spec's decision D8). -/
def Obligations.KeySkipsTestTheKeyNamedByVx : Prop :=
  Encodes 0xE09E 0xF0FF (fun op => .skp (opX op)) ∧ Encodes 0xE0A1 0xF0FF (fun op => .sknp (opX op)) ∧
  ∀ (x : Reg) (s : State),
    (∀ k : Fin 16, (readV s x).toNat = k.val →
      (∃ t, exec (.skp x) s = .next t ∧ (s.keypad[k] = true → t.pc = s.pc + 4) ∧
        (s.keypad[k] = false → t.pc = s.pc + 2) ∧ OnlyPcChanges s t) ∧
      (∃ t, exec (.sknp x) s = .next t ∧ (s.keypad[k] = false → t.pc = s.pc + 4) ∧
        (s.keypad[k] = true → t.pc = s.pc + 2) ∧ OnlyPcChanges s t)) ∧
    (0x0F < (readV s x).toNat →
      FaultTaken .keyIndexOutOfRange (readV s x).toNat s (exec (.skp x) s) ∧
      FaultTaken .keyIndexOutOfRange (readV s x).toNat s (exec (.sknp x) s))

/-- R183: LD Vx, K takes the highest key pressed; with none pressed nothing changes, so the instruction runs again. -/
def Obligations.KeyWaitTakesTheHighestKey : Prop :=
  Encodes 0xF00A 0xF0FF (fun op => .ldVK (opX op)) ∧
  ∀ (x : Reg) (s : State), ∃ t, exec (.ldVK x) s = .next t ∧
    ((∀ k : Fin 16, s.keypad[k] = false) → t = s) ∧
    (∀ k : Fin 16, s.keypad[k] = true → (∀ j : Fin 16, k < j → s.keypad[j] = false) →
      (readV t x).toNat = k.val ∧ RegsKeptBut (fun r => r = x) s t ∧ OnlyRegsAndPcChange s t ∧ t.pc = s.pc + 2)

/-- R183 over ticks: while no key is pressed pc stays, and only the timers move. -/
def Obligations.KeyWaitHoldsPcWhileNoKeyIsPressed : Prop :=
  ∀ (n : Nat) (s : State) (x : Reg), s.fault = none → fetchDecode s = .ok (.ldVK x) →
    (∀ k : Fin 16, s.keypad[k] = false) → Host.Core.run core n s = .next (timersAfter n s)

/-- R182, R184, R185: reading DT and writing DT and ST, before the timer step. -/
def Obligations.TimerReadsAndWrites : Prop :=
  Encodes 0xF007 0xF0FF (fun op => .ldVDT (opX op)) ∧ Encodes 0xF015 0xF0FF (fun op => .ldDTV (opX op)) ∧
  Encodes 0xF018 0xF0FF (fun op => .ldSTV (opX op)) ∧
  ∀ (x : Reg) (s : State),
    (∃ t, exec (.ldVDT x) s = .next t ∧ readV t x = s.dt ∧ RegsKeptBut (fun r => r = x) s t ∧
      OnlyRegsAndPcChange s t ∧ t.pc = s.pc + 2) ∧
    (∃ t, exec (.ldDTV x) s = .next t ∧ t.dt = readV s x ∧ t.st = s.st ∧ RegsKeptBut (fun _ => False) s t ∧ t.i = s.i ∧
      MemKept s t ∧ StackKept s t ∧ ScreenKept s t ∧ InputsAndLatchKept s t ∧ t.pc = s.pc + 2) ∧
    (∃ t, exec (.ldSTV x) s = .next t ∧ t.st = readV s x ∧ t.dt = s.dt ∧ RegsKeptBut (fun _ => False) s t ∧ t.i = s.i ∧
      MemKept s t ∧ StackKept s t ∧ ScreenKept s t ∧ InputsAndLatchKept s t ∧ t.pc = s.pc + 2)

/-- R237 (the spec's inference): DT set to n by one tick and read by the next reads n - 1 (0 for n = 0). -/
def Obligations.DelaySetThenReadIsOneLess : Prop :=
  ∀ (x y : Reg) (s : State), s.fault = none → fetchDecode s = .ok (.ldDTV x) →
    ∃ t, step s = .next t ∧ t.fault = none ∧
      (fetchDecode t = .ok (.ldVDT y) →
        ∃ u, step t = .next u ∧ u.fault = none ∧ (readV u y).toNat = (readV s x).toNat - 1)

/-! ## Reset and the host -/

/-- R38, R231: the state after init, for every FONT and seed and from any state. -/
def Obligations.InitGivesTheResetValues : Prop :=
  ∀ (font : Config.Font) (seed : Nat) (s t : State), t = hostInit font seed s →
    (∀ a : Fin 80, Memory.read t.mem a.val = font[a]) ∧ (∀ a, 80 ≤ a → Memory.read t.mem a = 0) ∧
    (∀ r, readV t r = 0) ∧ (∀ k : Fin 16, t.stack[k] = 0) ∧ t.sp = 0 ∧ t.pc = 0x0200 ∧ t.i = 0 ∧ t.dt = 0 ∧ t.st = 0 ∧
    (∀ r c, pixel t.fb r c = false) ∧ (∀ k : Fin 16, t.keypad[k] = false) ∧ t.dirty = false ∧ t.fault = none

/-- R232: init is idempotent and, but for the model's own index of the next random byte, which it keeps (log 2), reads nothing
of the state before it; the seed is ignored (D13). -/
def Obligations.InitIsIdempotent : Prop :=
  ∀ (font : Config.Font) (a b : Nat) (s s' : State), hostInit font a (hostInit font b s) = hostInit font a s ∧
    { hostInit font a s with draws := (hostInit font b s').draws } = hostInit font b s'

/-- R233: load_rom, for every FONT. -/
def Obligations.LoadRomPlacesTheBytesAt0x200 : Prop :=
  ∀ (font : Config.Font) (seed : Nat) (bytes : List Byte) (s : State),
    (bytes.length > 3584 → hostLoadRom font seed bytes s = (hostInit font seed s, some .tooLarge)) ∧
    (bytes.length ≤ 3584 → ∃ t, hostLoadRom font seed bytes s = (t, none) ∧
      t = { hostInit font seed s with mem := t.mem } ∧
      (∀ k, k < bytes.length → bytes[k]? = some (Memory.read t.mem (0x200 + k))) ∧
      MemKeptOutside 0x200 bytes.length (hostInit font seed s) t)

/-- The host's keypad write, dirty clear and framebuffer read (R215) do that and nothing else. -/
def Obligations.HostWritesOnlyKeypadAndDirty : Prop :=
  ∀ (font : Config.Font) (k : Reg) (b : Bool) (s : State),
    (∃ t, hostStep font (.writeKey k b) s = .next t ∧ t = { s with keypad := t.keypad } ∧ t.keypad[k] = b ∧
      ∀ j : Reg, j ≠ k → t.keypad[j] = s.keypad[j]) ∧
    hostStep font .clearDirty s = .next { s with dirty := false } ∧
    hostStep font .readFramebuffer s = .next s ∧ hostReadFramebuffer s = (s.fb, s.dirty)

/-- The host's placing of one instruction (log 7): the very next step runs exactly it. -/
def Obligations.PlacedWordIsTheNextInstruction : Prop :=
  ∀ (s : State) (w : Nat) (i : Instr), w < 65536 → decodeTableWord 16 w = some i →
    ∃ t, exec i (s.withFetchWord 16 w) = .next t ∧ step (s.withFetchWord 16 w) = .next (finishTick t)

/-- The model's reset state is the state after init with the spec's default FONT (D14, G3; PRESUMED, log 5), but for the
model's own index of the next random byte (log 2); and load_rom of no bytes gives it too. -/
def Obligations.ResetIsInitWithTheDefaultFont : Prop :=
  ∀ (seed : Nat) (s : State), hostInit defaultFont seed s = { State.reset with draws := s.draws } ∧
    hostLoadRom defaultFont seed [] s = ({ State.reset with draws := s.draws }, none)

/-- FX29 points at the glyph of FONT named by V[x] (R57, R162), for every FONT, while memory is as init left it. -/
def Obligations.LdFPointsAtTheGlyphOfFont : Prop :=
  ∀ (font : Config.Font) (seed : Nat) (s m t : State) (x : Reg) (k : Fin 16) (j : Fin 5),
    MemKept (hostInit font seed s) m → (readV m x).toNat = k.val → exec (.ldFV x) m = .next t →
    font[5 * k.val + j.val]? = some (Memory.read t.mem (t.i.toNat + j.val))
end

