-- ==== Sys2Proof/Laws/Encoding.lean ====
section
/-! SUPPORT. The fields of a packed opcode, and the packed opcode under a mask: the facts from which decoding facts follow
without looking at bits again. -/

namespace Sys2Proof

theorem regField_toNat (r : Reg) : (regField r).toNat = r.val := by
  have := r.isLt
  simp [regField]

/-- A register name survives its field. -/
theorem reg_of_field (r : Reg) (h : (regField r).toNat < 16) : (⟨(regField r).toNat, h⟩ : Reg) = r :=
  Fin.ext (regField_toNat r)

/-! ### Fields of a packed opcode -/

@[simp] theorem opClass_packXYN (c : BitVec 4) (x y : Reg) (n : BitVec 4) : opClass (packXYN c x y n) = c := by
  apply BitVec.eq_of_getLsbD_eq
  intro i hi
  simp only [opClass, packXYN, BitVec.extractLsb, BitVec.getLsbD_extractLsb', BitVec.getLsbD_append]
  simp [show ¬ 12 + i < 4 by omega, show ¬ 12 + i - 4 < 4 by omega, show ¬ 12 + i - 4 - 4 < 4 by omega,
    show 12 + i - 4 - 4 - 4 = i by omega, hi]

@[simp] theorem opX_packXYN (c : BitVec 4) (x y : Reg) (n : BitVec 4) : opX (packXYN c x y n) = x := by
  have h : (packXYN c x y n).extractLsb 11 8 = regField x := by
    apply BitVec.eq_of_getLsbD_eq
    intro i hi
    have hi : i < 4 := hi
    simp only [packXYN, BitVec.extractLsb, BitVec.getLsbD_extractLsb', BitVec.getLsbD_append]
    simp [show ¬ 8 + i < 4 by omega, show ¬ 8 + i - 4 < 4 by omega, show 8 + i - 4 - 4 = i by omega, hi]
  apply Fin.ext
  simp only [opX, h]
  exact regField_toNat x

@[simp] theorem opY_packXYN (c : BitVec 4) (x y : Reg) (n : BitVec 4) : opY (packXYN c x y n) = y := by
  have h : (packXYN c x y n).extractLsb 7 4 = regField y := by
    apply BitVec.eq_of_getLsbD_eq
    intro i hi
    have hi : i < 4 := hi
    simp only [packXYN, BitVec.extractLsb, BitVec.getLsbD_extractLsb', BitVec.getLsbD_append]
    simp [show ¬ 4 + i < 4 by omega, show 4 + i - 4 = i by omega, hi]
  apply Fin.ext
  simp only [opY, h]
  exact regField_toNat y

@[simp] theorem opN_packXYN (c : BitVec 4) (x y : Reg) (n : BitVec 4) : opN (packXYN c x y n) = n := by
  apply BitVec.eq_of_getLsbD_eq
  intro i hi
  have hi : i < 4 := hi
  simp only [opN, packXYN, BitVec.extractLsb, BitVec.getLsbD_extractLsb', BitVec.getLsbD_append]
  simp [hi]

@[simp] theorem opClass_packXNN (c : BitVec 4) (x : Reg) (nn : Byte) : opClass (packXNN c x nn) = c := by
  apply BitVec.eq_of_getLsbD_eq
  intro i hi
  simp only [opClass, packXNN, BitVec.extractLsb, BitVec.getLsbD_extractLsb', BitVec.getLsbD_append]
  simp [show ¬ 12 + i < 8 by omega, show ¬ 12 + i - 8 < 4 by omega, show 12 + i - 8 - 4 = i by omega, hi]

@[simp] theorem opX_packXNN (c : BitVec 4) (x : Reg) (nn : Byte) : opX (packXNN c x nn) = x := by
  have h : (packXNN c x nn).extractLsb 11 8 = regField x := by
    apply BitVec.eq_of_getLsbD_eq
    intro i hi
    have hi : i < 4 := hi
    simp only [packXNN, BitVec.extractLsb, BitVec.getLsbD_extractLsb', BitVec.getLsbD_append]
    simp [show ¬ 8 + i < 8 by omega, show 8 + i - 8 = i by omega, hi]
  apply Fin.ext
  simp only [opX, h]
  exact regField_toNat x

@[simp] theorem opNN_packXNN (c : BitVec 4) (x : Reg) (nn : Byte) : opNN (packXNN c x nn) = nn := by
  apply BitVec.eq_of_getLsbD_eq
  intro i hi
  have hi : i < 8 := hi
  simp only [opNN, packXNN, BitVec.extractLsb, BitVec.getLsbD_extractLsb', BitVec.getLsbD_append]
  simp [hi]

@[simp] theorem opClass_packNNN (c : BitVec 4) (nnn : BitVec 12) : opClass (packNNN c nnn) = c := by
  apply BitVec.eq_of_getLsbD_eq
  intro i hi
  simp only [opClass, packNNN, BitVec.extractLsb, BitVec.getLsbD_extractLsb', BitVec.getLsbD_append]
  simp [hi]

@[simp] theorem opNNN_packNNN (c : BitVec 4) (nnn : BitVec 12) : opNNN (packNNN c nnn) = nnn := by
  apply BitVec.eq_of_getLsbD_eq
  intro i hi
  have hi : i < 12 := hi
  simp only [opNNN, packNNN, BitVec.extractLsb, BitVec.getLsbD_extractLsb', BitVec.getLsbD_append]
  simp [hi]

/-! ### A packed opcode under a mask -/

theorem packNNN_and_class (c : BitVec 4) (nnn : BitVec 12) : packNNN c nnn &&& 0xF000 = c ++ 0#12 := by
  have h : (0xF000 : Word) = (0xF : BitVec 4) ++ 0#12 := rfl
  have hc : c &&& 0xF = c := BitVec.and_allOnes
  rw [h, packNNN, BitVec.and_append, hc, BitVec.and_zero]

theorem packXNN_and_class (c : BitVec 4) (x : Reg) (nn : Byte) :
    packXNN c x nn &&& 0xF000 = c ++ 0#4 ++ 0#8 := by
  have h : (0xF000 : Word) = (0xF : BitVec 4) ++ 0#4 ++ 0#8 := rfl
  have hc : c &&& 0xF = c := BitVec.and_allOnes
  rw [h, packXNN, BitVec.and_append, BitVec.and_append, hc, BitVec.and_zero, BitVec.and_zero]

theorem packXNN_and_selector (c : BitVec 4) (x : Reg) (nn : Byte) :
    packXNN c x nn &&& 0xF0FF = c ++ 0#4 ++ nn := by
  have h : (0xF0FF : Word) = (0xF : BitVec 4) ++ 0#4 ++ (0xFF : Byte) := rfl
  have hc : c &&& 0xF = c := BitVec.and_allOnes
  have hn : nn &&& 0xFF = nn := BitVec.and_allOnes
  rw [h, packXNN, BitVec.and_append, BitVec.and_append, hc, hn, BitVec.and_zero]

theorem packXYN_and_class (c : BitVec 4) (x y : Reg) (n : BitVec 4) :
    packXYN c x y n &&& 0xF000 = c ++ 0#4 ++ 0#4 ++ 0#4 := by
  have h : (0xF000 : Word) = (0xF : BitVec 4) ++ 0#4 ++ 0#4 ++ 0#4 := rfl
  have hc : c &&& 0xF = c := BitVec.and_allOnes
  rw [h, packXYN, BitVec.and_append, BitVec.and_append, BitVec.and_append, hc,
    BitVec.and_zero, BitVec.and_zero, BitVec.and_zero]

theorem packXYN_and_selector (c : BitVec 4) (x y : Reg) (n : BitVec 4) :
    packXYN c x y n &&& 0xF00F = c ++ 0#4 ++ 0#4 ++ n := by
  have h : (0xF00F : Word) = (0xF : BitVec 4) ++ 0#4 ++ 0#4 ++ (0xF : BitVec 4) := rfl
  have hc : c &&& 0xF = c := BitVec.and_allOnes
  have hn : n &&& 0xF = n := BitVec.and_allOnes
  rw [h, packXYN, BitVec.and_append, BitVec.and_append, BitVec.and_append, hc, hn,
    BitVec.and_zero, BitVec.and_zero]

/-! ### What an opcode under a mask still says of its fields -/

@[simp] theorem opClass_and_F000 (op : Word) : opClass (op &&& 0xF000) = opClass op := by
  have h : (0xF000 : Word).extractLsb 15 12 = BitVec.allOnes 4 := rfl
  simp only [opClass, BitVec.extractLsb_and, h]
  exact BitVec.and_allOnes

@[simp] theorem opClass_and_F0FF (op : Word) : opClass (op &&& 0xF0FF) = opClass op := by
  have h : (0xF0FF : Word).extractLsb 15 12 = BitVec.allOnes 4 := rfl
  simp only [opClass, BitVec.extractLsb_and, h]
  exact BitVec.and_allOnes

@[simp] theorem opClass_and_F00F (op : Word) : opClass (op &&& 0xF00F) = opClass op := by
  have h : (0xF00F : Word).extractLsb 15 12 = BitVec.allOnes 4 := rfl
  simp only [opClass, BitVec.extractLsb_and, h]
  exact BitVec.and_allOnes

@[simp] theorem opNN_and_F0FF (op : Word) : opNN (op &&& 0xF0FF) = opNN op := by
  have h : (0xF0FF : Word).extractLsb 7 0 = BitVec.allOnes 8 := rfl
  simp only [opNN, BitVec.extractLsb_and, h]
  exact BitVec.and_allOnes

@[simp] theorem opN_and_F00F (op : Word) : opN (op &&& 0xF00F) = opN op := by
  have h : (0xF00F : Word).extractLsb 3 0 = BitVec.allOnes 4 := rfl
  simp only [opN, BitVec.extractLsb_and, h]
  exact BitVec.and_allOnes

/-! ### Every opcode is packed from its fields -/

theorem eq_packXYN (op : Word) : op = packXYN (opClass op) (opX op) (opY op) (opN op) := by
  have hx : regField (opX op) = op.extractLsb 11 8 := by
    apply BitVec.eq_of_toNat_eq
    exact regField_toNat _
  have hy : regField (opY op) = op.extractLsb 7 4 := by
    apply BitVec.eq_of_toNat_eq
    exact regField_toNat _
  unfold packXYN
  rw [hx, hy]
  apply BitVec.eq_of_getLsbD_eq
  intro i hi
  simp only [opClass, opN, BitVec.extractLsb, BitVec.getLsbD_append, BitVec.getLsbD_extractLsb']
  by_cases h1 : i < 4
  · simp [h1]
  · by_cases h2 : i < 8
    · simp [h1, show i - 4 < 4 by omega, show 4 + (i - 4) = i by omega]
    · by_cases h3 : i < 12
      · simp [h1, show ¬ i - 4 < 4 by omega, show i - 4 - 4 < 4 by omega, show 8 + (i - 4 - 4) = i by omega]
      · simp [h1, show ¬ i - 4 < 4 by omega, show ¬ i - 4 - 4 < 4 by omega, show i - 4 - 4 - 4 < 4 by omega,
          show 12 + (i - 4 - 4 - 4) = i by omega]

theorem eq_packXNN (op : Word) : op = packXNN (opClass op) (opX op) (opNN op) := by
  have hx : regField (opX op) = op.extractLsb 11 8 := by
    apply BitVec.eq_of_toNat_eq
    exact regField_toNat _
  unfold packXNN
  rw [hx]
  apply BitVec.eq_of_getLsbD_eq
  intro i hi
  simp only [opClass, opNN, BitVec.extractLsb, BitVec.getLsbD_append, BitVec.getLsbD_extractLsb']
  by_cases h1 : i < 8
  · simp [h1]
  · by_cases h2 : i < 12
    · simp [h1, show i - 8 < 4 by omega, show 8 + (i - 8) = i by omega]
    · simp [h1, show ¬ i - 8 < 4 by omega, show i - 8 - 4 < 4 by omega, show 12 + (i - 8 - 4) = i by omega]

theorem eq_packNNN (op : Word) : op = packNNN (opClass op) (opNNN op) := by
  unfold packNNN
  apply BitVec.eq_of_getLsbD_eq
  intro i hi
  simp only [opClass, opNNN, BitVec.extractLsb, BitVec.getLsbD_append, BitVec.getLsbD_extractLsb']
  by_cases h1 : i < 12
  · simp [h1]
  · simp [h1, show i - 12 < 4 by omega, show 12 + (i - 12) = i by omega]

end Sys2Proof
end

