-- ==== Sys2Proof/Laws/Memory.lean ====
section
/-! SUPPORT. Memory: read after write, and every memory operation keeps the canonical form (20_memory.md R60). -/

namespace Sys2Proof.Machine

/-! ### Lookup after insert and erase -/

theorem lookup_insert_self (m : Memory) (a : Nat) (b : Byte) : Memory.lookup (Memory.insert m a b) a = some b := by
  induction m with
  | nil => simp [Memory.insert, Memory.lookup]
  | cons c rest ih =>
    unfold Memory.insert
    split
    · simp [Memory.lookup]
    · split
      · simp [Memory.lookup]
      · next h => simp [Memory.lookup, ih, Ne.symm h]

theorem lookup_insert_ne (m : Memory) {a k : Nat} (b : Byte) (h : k ≠ a) :
    Memory.lookup (Memory.insert m a b) k = Memory.lookup m k := by
  induction m with
  | nil => simp [Memory.insert, Memory.lookup, Ne.symm h]
  | cons c rest ih =>
    unfold Memory.insert
    split
    · simp [Memory.lookup, Ne.symm h]
    · split
      · next h' => subst h'; simp [Memory.lookup, Ne.symm h]
      · simp [Memory.lookup, ih]

theorem lookup_erase_self (m : Memory) (a : Nat) : Memory.lookup (Memory.erase m a) a = none := by
  induction m with
  | nil => rfl
  | cons c rest ih =>
    unfold Memory.erase
    split
    · exact ih
    · next h => simp [Memory.lookup, h, ih]

theorem lookup_erase_ne (m : Memory) {a k : Nat} (h : k ≠ a) :
    Memory.lookup (Memory.erase m a) k = Memory.lookup m k := by
  induction m with
  | nil => rfl
  | cons c rest ih =>
    unfold Memory.erase
    split
    · next h' => simp [Memory.lookup, h', Ne.symm h, ih]
    · simp [Memory.lookup, ih]

/-! ### Read after write -/

@[simp] theorem read_write_self (m : Memory) (a : Nat) (b : Byte) : Memory.read (Memory.write m a b) a = b := by
  unfold Memory.write Memory.read
  split
  · next h => simp [lookup_erase_self, h]
  · simp [lookup_insert_self]

theorem read_write_ne (m : Memory) {a k : Nat} (b : Byte) (h : k ≠ a) :
    Memory.read (Memory.write m a b) k = Memory.read m k := by
  unfold Memory.write Memory.read
  split
  · simp [lookup_erase_ne m h]
  · simp [lookup_insert_ne m b h]

/-- Reading any address after one write. -/
theorem read_write (m : Memory) (a k : Nat) (b : Byte) :
    Memory.read (Memory.write m a b) k = if k = a then b else Memory.read m k := by
  split
  · next h => subst h; simp
  · next h => exact read_write_ne m b h

/-- An address below the loaded bytes is untouched. -/
theorem read_load_below (m : Memory) (a k : Nat) (bytes : List Byte) (h : k < a) :
    Memory.read (Memory.load m a bytes) k = Memory.read m k := by
  induction bytes generalizing m a with
  | nil => rfl
  | cons b rest ih => rw [Memory.load, ih _ _ (by omega), read_write_ne _ _ (by omega)]

/-- Reading any address after a run of bytes was loaded at `a`. -/
theorem read_load (m : Memory) (a k : Nat) (bytes : List Byte) :
    Memory.read (Memory.load m a bytes) k =
      if a ≤ k ∧ k < a + bytes.length then bytes.getD (k - a) 0 else Memory.read m k := by
  induction bytes generalizing m a with
  | nil => simp [Memory.load]
  | cons b rest ih =>
    rw [Memory.load, ih, read_write]
    by_cases hk : k = a
    · subst hk
      simp
    · obtain hlt | hgt := Nat.lt_or_gt_of_ne hk
      · rw [if_neg (by omega), if_neg hk, if_neg (by simp; omega)]
      · obtain ⟨d, rfl⟩ := Nat.exists_eq_add_of_lt hgt
        by_cases hd : d < rest.length
        · rw [if_pos (by omega), if_pos (by simp; omega)]
          have h1 : a + d + 1 - (a + 1) = d := by omega
          have h2 : a + d + 1 - a = d + 1 := by omega
          rw [h1, h2, List.getD_cons_succ]
        · rw [if_neg (by omega), if_neg hk, if_neg (by simp; omega)]

/-! ### The canonical form is kept -/

theorem wfFrom_mono {lo lo' : Nat} {m : Memory} (h : lo' ≤ lo) (hw : Memory.wfFrom lo m = true) :
    Memory.wfFrom lo' m = true := by
  cases m with
  | nil => rfl
  | cons c rest =>
    simp only [Memory.wfFrom, Bool.and_eq_true, decide_eq_true_eq] at hw ⊢
    exact ⟨⟨⟨h.trans hw.1.1.1, hw.1.1.2⟩, hw.1.2⟩, hw.2⟩

theorem wfFrom_erase {lo : Nat} {m : Memory} (a : Nat) (hw : Memory.wfFrom lo m = true) :
    Memory.wfFrom lo (Memory.erase m a) = true := by
  induction m generalizing lo with
  | nil => rfl
  | cons c rest ih =>
    simp only [Memory.wfFrom, Bool.and_eq_true, decide_eq_true_eq] at hw
    unfold Memory.erase
    split
    · exact ih (wfFrom_mono (by omega) hw.2)
    · simp only [Memory.wfFrom, Bool.and_eq_true, decide_eq_true_eq]
      exact ⟨hw.1, ih hw.2⟩

theorem wfFrom_insert {lo : Nat} {m : Memory} {a : Nat} {b : Byte} (hlo : lo ≤ a) (ha : a < Config.memSize)
    (hb : b ≠ resetByte a) (hw : Memory.wfFrom lo m = true) : Memory.wfFrom lo (Memory.insert m a b) = true := by
  induction m generalizing lo with
  | nil => simp [Memory.insert, Memory.wfFrom, hlo, ha, hb]
  | cons c rest ih =>
    simp only [Memory.wfFrom, Bool.and_eq_true, decide_eq_true_eq] at hw
    unfold Memory.insert
    split
    · next h =>
      simp only [Memory.wfFrom, Bool.and_eq_true, decide_eq_true_eq]
      exact ⟨⟨⟨hlo, ha⟩, hb⟩, ⟨⟨by omega, hw.1.1.2⟩, hw.1.2⟩, hw.2⟩
    · split
      · next h =>
        simp only [Memory.wfFrom, Bool.and_eq_true, decide_eq_true_eq]
        exact ⟨⟨⟨hlo, ha⟩, hb⟩, h ▸ hw.2⟩
      · next h1 h2 =>
        simp only [Memory.wfFrom, Bool.and_eq_true, decide_eq_true_eq]
        exact ⟨hw.1, ih (by omega) hw.2⟩

/-- A write to an address of memory keeps the canonical form. -/
theorem wf_write {m : Memory} {a : Nat} (b : Byte) (ha : a < Config.memSize) (hw : Memory.wf m = true) :
    Memory.wf (Memory.write m a b) = true := by
  unfold Memory.write
  split
  · exact wfFrom_erase a hw
  · next hb => exact wfFrom_insert (Nat.zero_le _) ha hb hw

/-- Loading bytes that fit keeps the canonical form. -/
theorem wf_load {m : Memory} {a : Nat} {bytes : List Byte} (ha : a + bytes.length ≤ Config.memSize)
    (hw : Memory.wf m = true) : Memory.wf (Memory.load m a bytes) = true := by
  induction bytes generalizing m a with
  | nil => exact hw
  | cons b rest ih =>
    simp only [List.length_cons] at ha
    exact ih (by omega) (wf_write b (by omega) hw)

/-- What a run of checked writes gives: the bytes loaded if they fit, or the lowest address that does not (R56, D31). -/
theorem memWrites_eq (m : Memory) (a : Nat) (bytes : List Byte) :
    memWrites m a bytes =
      if bytes = [] ∨ a + bytes.length ≤ Config.memSize then .ok (Memory.load m a bytes)
      else .error ⟨.memoryOutOfRange, max a Config.memSize⟩ := by
  induction bytes generalizing m a with
  | nil => simp [memWrites, Memory.load]
  | cons b rest ih =>
    unfold memWrites memWrite
    by_cases h : Config.memSize ≤ a
    · rw [if_pos h, if_neg (by simp; omega)]
      simp [Nat.max_eq_left h]
    · rw [if_neg h]
      show memWrites (Memory.write m a b) (a + 1) rest = _
      rw [ih]
      by_cases hr : rest = []
      · subst hr
        rw [if_pos (Or.inl rfl), if_pos (Or.inr (by simp; omega))]
        rfl
      · by_cases hf : a + 1 + rest.length ≤ Config.memSize
        · rw [if_pos (Or.inr hf), if_pos (Or.inr (by simp; omega))]
          rfl
        · rw [if_neg (by simp [hr, hf]), if_neg (by simp; omega)]
          rw [Nat.max_eq_right (by omega), Nat.max_eq_right (by omega)]

/-- What a run of checked reads gives: the bytes if all lie in memory, or the lowest address that does not (R56, D31). -/
theorem memReads_eq (m : Memory) (a n : Nat) :
    memReads m a n =
      if n = 0 ∨ a + n ≤ Config.memSize then .ok ((List.range' a n).map (Memory.read m))
      else .error ⟨.memoryOutOfRange, max a Config.memSize⟩ := by
  induction n generalizing a with
  | zero => simp [memReads]
  | succ n ih =>
    unfold memReads memRead
    by_cases h : Config.memSize ≤ a
    · rw [if_pos h, if_neg (by omega)]
      simp [Nat.max_eq_left h]
    · rw [if_neg h]
      simp only [ih]
      by_cases hf : n = 0 ∨ a + 1 + n ≤ Config.memSize
      · rw [if_pos hf, if_pos (by omega)]
        simp [List.range'_succ]
      · rw [if_neg hf, if_neg (by omega)]
        rw [Nat.max_eq_right (by omega), Nat.max_eq_right (by omega)]

/-- A run of checked writes that succeeds keeps the canonical form. -/
theorem wf_memWrites {m m' : Memory} {a : Nat} {bytes : List Byte} (h : memWrites m a bytes = .ok m')
    (hw : Memory.wf m = true) : Memory.wf m' = true := by
  rw [memWrites_eq] at h
  split at h
  · next hc =>
    obtain rfl : Memory.load m a bytes = m' := Except.ok.inj h
    obtain rfl | hf := hc
    · exact hw
    · exact wf_load hf hw
  · cases h

/-- The memory of the reset state is in canonical form. -/
theorem wf_reset : Memory.wf State.reset.mem = true := rfl

end Sys2Proof.Machine
end

