-- ==== Sys2Proof/Laws/HostOps.lean ====
section
/-! SUPPORT. What init and load_rom leave, for every FONT (70_reset_and_hazards.md R231, R233). -/

namespace Sys2Proof.Machine

/-! ### Init, field by field -/

theorem hostInit_eq (font : Config.Font) (seed : Nat) (s : State) :
    hostInit font seed s = { State.reset with mem := (hostInit font seed s).mem, draws := s.draws } := rfl

@[simp] theorem hostInit_v (font : Config.Font) (seed : Nat) (s : State) : (hostInit font seed s).v = State.reset.v := rfl
@[simp] theorem hostInit_stack (font : Config.Font) (seed : Nat) (s : State) :
    (hostInit font seed s).stack = State.reset.stack := rfl
@[simp] theorem hostInit_sp (font : Config.Font) (seed : Nat) (s : State) : (hostInit font seed s).sp = 0 := rfl
@[simp] theorem hostInit_pc (font : Config.Font) (seed : Nat) (s : State) : (hostInit font seed s).pc = 0x0200 := rfl
@[simp] theorem hostInit_i (font : Config.Font) (seed : Nat) (s : State) : (hostInit font seed s).i = 0 := rfl
@[simp] theorem hostInit_dt (font : Config.Font) (seed : Nat) (s : State) : (hostInit font seed s).dt = 0 := rfl
@[simp] theorem hostInit_st (font : Config.Font) (seed : Nat) (s : State) : (hostInit font seed s).st = 0 := rfl
@[simp] theorem hostInit_fb (font : Config.Font) (seed : Nat) (s : State) : (hostInit font seed s).fb = State.reset.fb := rfl
@[simp] theorem hostInit_keypad (font : Config.Font) (seed : Nat) (s : State) :
    (hostInit font seed s).keypad = State.reset.keypad := rfl
@[simp] theorem hostInit_dirty (font : Config.Font) (seed : Nat) (s : State) : (hostInit font seed s).dirty = false := rfl
@[simp] theorem hostInit_fault (font : Config.Font) (seed : Nat) (s : State) : (hostInit font seed s).fault = none := rfl
@[simp] theorem hostInit_draws (font : Config.Font) (seed : Nat) (s : State) : (hostInit font seed s).draws = s.draws := rfl

/-! ### The memory init leaves -/

/-- An address past the font has its reset byte 0. -/
theorem resetByte_of_le {a : Nat} (h : 80 ≤ a) : resetByte a = 0 := by
  unfold resetByte
  rw [dif_neg (by omega)]

/-- Reading any address after init: the font, and zeros past it (R38). -/
theorem read_hostInit (font : Config.Font) (seed : Nat) (s : State) (a : Nat) :
    Memory.read (hostInit font seed s).mem a = if h : a < 80 then font[a] else 0 := by
  show Memory.read (Memory.load [] 0 font.toList) a = _
  rw [read_load]
  by_cases h : a < 80
  · rw [if_pos (by simpa using h), dif_pos h]
    simp [List.getD_eq_getElem?_getD, h]
  · rw [if_neg (by simpa using h), dif_neg h]
    exact resetByte_of_le (by omega)

/-- The memory init leaves is in canonical form, whatever the font. -/
theorem wf_hostInit (font : Config.Font) (seed : Nat) (s : State) : Memory.wf (hostInit font seed s).mem = true :=
  wf_load (by simp [Config.memSize]) wf_reset

/-- With the default font init lists nothing: the model's reset state is the state after init (log 5). -/
theorem resetFor_defaultFont : State.resetFor defaultFont = State.reset := by
  have h : Memory.load State.reset.mem 0 defaultFont.toList = State.reset.mem := by decide
  unfold State.resetFor
  rw [h]

/-! ### Load -/

/-- Everything load_rom can do (R233): reject, or place the bytes after init. -/
theorem hostLoadRom_cases (font : Config.Font) (seed : Nat) (bytes : List Byte) (s : State) :
    (Config.romMax < bytes.length ∧ hostLoadRom font seed bytes s = (hostInit font seed s, some .tooLarge)) ∨
    (bytes.length ≤ Config.romMax ∧ hostLoadRom font seed bytes s =
      ({ hostInit font seed s with mem := Memory.load (hostInit font seed s).mem Config.romBase bytes }, none)) := by
  unfold hostLoadRom
  by_cases h : bytes.length > Config.romMax
  · exact .inl ⟨h, by simp [h]⟩
  · exact .inr ⟨by omega, by simp [h]⟩

/-- The memory load_rom leaves is in canonical form. -/
theorem wf_hostLoadRom (font : Config.Font) (seed : Nat) (bytes : List Byte) (s : State) :
    Memory.wf (hostLoadRom font seed bytes s).1.mem = true := by
  obtain ⟨-, h⟩ | ⟨hl, h⟩ := hostLoadRom_cases font seed bytes s <;> rw [h]
  · exact wf_hostInit font seed s
  · refine wf_load ?_ (wf_hostInit font seed s)
    simp only [Config.romMax, Config.memSize, Config.romBase] at hl ⊢
    omega

end Sys2Proof.Machine
end

