-- ==== Sys2Proof/Laws/State.lean ====
section
/-! SUPPORT. What each named update does to each field of State: one simp lemma per field per update. -/

namespace Sys2Proof.Machine

/-! ### writeV -/

@[simp] theorem writeV_mem (x : Reg) (b : Byte) (s : State) : (writeV x b s).mem = s.mem := rfl
@[simp] theorem writeV_v (x : Reg) (b : Byte) (s : State) : (writeV x b s).v = s.v.set x b := rfl
@[simp] theorem writeV_stack (x : Reg) (b : Byte) (s : State) : (writeV x b s).stack = s.stack := rfl
@[simp] theorem writeV_sp (x : Reg) (b : Byte) (s : State) : (writeV x b s).sp = s.sp := rfl
@[simp] theorem writeV_pc (x : Reg) (b : Byte) (s : State) : (writeV x b s).pc = s.pc := rfl
@[simp] theorem writeV_i (x : Reg) (b : Byte) (s : State) : (writeV x b s).i = s.i := rfl
@[simp] theorem writeV_dt (x : Reg) (b : Byte) (s : State) : (writeV x b s).dt = s.dt := rfl
@[simp] theorem writeV_st (x : Reg) (b : Byte) (s : State) : (writeV x b s).st = s.st := rfl
@[simp] theorem writeV_fb (x : Reg) (b : Byte) (s : State) : (writeV x b s).fb = s.fb := rfl
@[simp] theorem writeV_keypad (x : Reg) (b : Byte) (s : State) : (writeV x b s).keypad = s.keypad := rfl
@[simp] theorem writeV_dirty (x : Reg) (b : Byte) (s : State) : (writeV x b s).dirty = s.dirty := rfl
@[simp] theorem writeV_fault (x : Reg) (b : Byte) (s : State) : (writeV x b s).fault = s.fault := rfl
@[simp] theorem writeV_draws (x : Reg) (b : Byte) (s : State) : (writeV x b s).draws = s.draws := rfl

/-! ### jumpTo -/

@[simp] theorem jumpTo_mem (w : Word) (s : State) : (jumpTo w s).mem = s.mem := rfl
@[simp] theorem jumpTo_v (w : Word) (s : State) : (jumpTo w s).v = s.v := rfl
@[simp] theorem jumpTo_stack (w : Word) (s : State) : (jumpTo w s).stack = s.stack := rfl
@[simp] theorem jumpTo_sp (w : Word) (s : State) : (jumpTo w s).sp = s.sp := rfl
@[simp] theorem jumpTo_pc (w : Word) (s : State) : (jumpTo w s).pc = w := rfl
@[simp] theorem jumpTo_i (w : Word) (s : State) : (jumpTo w s).i = s.i := rfl
@[simp] theorem jumpTo_dt (w : Word) (s : State) : (jumpTo w s).dt = s.dt := rfl
@[simp] theorem jumpTo_st (w : Word) (s : State) : (jumpTo w s).st = s.st := rfl
@[simp] theorem jumpTo_fb (w : Word) (s : State) : (jumpTo w s).fb = s.fb := rfl
@[simp] theorem jumpTo_keypad (w : Word) (s : State) : (jumpTo w s).keypad = s.keypad := rfl
@[simp] theorem jumpTo_dirty (w : Word) (s : State) : (jumpTo w s).dirty = s.dirty := rfl
@[simp] theorem jumpTo_fault (w : Word) (s : State) : (jumpTo w s).fault = s.fault := rfl
@[simp] theorem jumpTo_draws (w : Word) (s : State) : (jumpTo w s).draws = s.draws := rfl

/-! ### advance -/

@[simp] theorem advance_mem (s : State) : (advance s).mem = s.mem := rfl
@[simp] theorem advance_v (s : State) : (advance s).v = s.v := rfl
@[simp] theorem advance_stack (s : State) : (advance s).stack = s.stack := rfl
@[simp] theorem advance_sp (s : State) : (advance s).sp = s.sp := rfl
@[simp] theorem advance_pc (s : State) : (advance s).pc = s.pc + 2 := rfl
@[simp] theorem advance_i (s : State) : (advance s).i = s.i := rfl
@[simp] theorem advance_dt (s : State) : (advance s).dt = s.dt := rfl
@[simp] theorem advance_st (s : State) : (advance s).st = s.st := rfl
@[simp] theorem advance_fb (s : State) : (advance s).fb = s.fb := rfl
@[simp] theorem advance_keypad (s : State) : (advance s).keypad = s.keypad := rfl
@[simp] theorem advance_dirty (s : State) : (advance s).dirty = s.dirty := rfl
@[simp] theorem advance_fault (s : State) : (advance s).fault = s.fault := rfl
@[simp] theorem advance_draws (s : State) : (advance s).draws = s.draws := rfl

/-! ### skipIf -/

@[simp] theorem skipIf_mem (c : Bool) (s : State) : (skipIf c s).mem = s.mem := rfl
@[simp] theorem skipIf_v (c : Bool) (s : State) : (skipIf c s).v = s.v := rfl
@[simp] theorem skipIf_stack (c : Bool) (s : State) : (skipIf c s).stack = s.stack := rfl
@[simp] theorem skipIf_sp (c : Bool) (s : State) : (skipIf c s).sp = s.sp := rfl
@[simp] theorem skipIf_pc (c : Bool) (s : State) : (skipIf c s).pc = if c then s.pc + 4 else s.pc + 2 := rfl
@[simp] theorem skipIf_i (c : Bool) (s : State) : (skipIf c s).i = s.i := rfl
@[simp] theorem skipIf_dt (c : Bool) (s : State) : (skipIf c s).dt = s.dt := rfl
@[simp] theorem skipIf_st (c : Bool) (s : State) : (skipIf c s).st = s.st := rfl
@[simp] theorem skipIf_fb (c : Bool) (s : State) : (skipIf c s).fb = s.fb := rfl
@[simp] theorem skipIf_keypad (c : Bool) (s : State) : (skipIf c s).keypad = s.keypad := rfl
@[simp] theorem skipIf_dirty (c : Bool) (s : State) : (skipIf c s).dirty = s.dirty := rfl
@[simp] theorem skipIf_fault (c : Bool) (s : State) : (skipIf c s).fault = s.fault := rfl
@[simp] theorem skipIf_draws (c : Bool) (s : State) : (skipIf c s).draws = s.draws := rfl

/-! ### writeI -/

@[simp] theorem writeI_mem (w : Word) (s : State) : (writeI w s).mem = s.mem := rfl
@[simp] theorem writeI_v (w : Word) (s : State) : (writeI w s).v = s.v := rfl
@[simp] theorem writeI_stack (w : Word) (s : State) : (writeI w s).stack = s.stack := rfl
@[simp] theorem writeI_sp (w : Word) (s : State) : (writeI w s).sp = s.sp := rfl
@[simp] theorem writeI_pc (w : Word) (s : State) : (writeI w s).pc = s.pc := rfl
@[simp] theorem writeI_i (w : Word) (s : State) : (writeI w s).i = w := rfl
@[simp] theorem writeI_dt (w : Word) (s : State) : (writeI w s).dt = s.dt := rfl
@[simp] theorem writeI_st (w : Word) (s : State) : (writeI w s).st = s.st := rfl
@[simp] theorem writeI_fb (w : Word) (s : State) : (writeI w s).fb = s.fb := rfl
@[simp] theorem writeI_keypad (w : Word) (s : State) : (writeI w s).keypad = s.keypad := rfl
@[simp] theorem writeI_dirty (w : Word) (s : State) : (writeI w s).dirty = s.dirty := rfl
@[simp] theorem writeI_fault (w : Word) (s : State) : (writeI w s).fault = s.fault := rfl
@[simp] theorem writeI_draws (w : Word) (s : State) : (writeI w s).draws = s.draws := rfl

/-! ### advanceI -/

@[simp] theorem advanceI_mem (x : Reg) (s : State) : (advanceI x s).mem = s.mem := rfl
@[simp] theorem advanceI_v (x : Reg) (s : State) : (advanceI x s).v = s.v := rfl
@[simp] theorem advanceI_stack (x : Reg) (s : State) : (advanceI x s).stack = s.stack := rfl
@[simp] theorem advanceI_sp (x : Reg) (s : State) : (advanceI x s).sp = s.sp := rfl
@[simp] theorem advanceI_pc (x : Reg) (s : State) : (advanceI x s).pc = s.pc := rfl
@[simp] theorem advanceI_i (x : Reg) (s : State) : (advanceI x s).i = s.i + BitVec.ofNat 16 (x.val + 1) := rfl
@[simp] theorem advanceI_dt (x : Reg) (s : State) : (advanceI x s).dt = s.dt := rfl
@[simp] theorem advanceI_st (x : Reg) (s : State) : (advanceI x s).st = s.st := rfl
@[simp] theorem advanceI_fb (x : Reg) (s : State) : (advanceI x s).fb = s.fb := rfl
@[simp] theorem advanceI_keypad (x : Reg) (s : State) : (advanceI x s).keypad = s.keypad := rfl
@[simp] theorem advanceI_dirty (x : Reg) (s : State) : (advanceI x s).dirty = s.dirty := rfl
@[simp] theorem advanceI_fault (x : Reg) (s : State) : (advanceI x s).fault = s.fault := rfl
@[simp] theorem advanceI_draws (x : Reg) (s : State) : (advanceI x s).draws = s.draws := rfl

/-! ### showScreen -/

@[simp] theorem showScreen_mem (fb : Framebuffer) (s : State) : (showScreen fb s).mem = s.mem := rfl
@[simp] theorem showScreen_v (fb : Framebuffer) (s : State) : (showScreen fb s).v = s.v := rfl
@[simp] theorem showScreen_stack (fb : Framebuffer) (s : State) : (showScreen fb s).stack = s.stack := rfl
@[simp] theorem showScreen_sp (fb : Framebuffer) (s : State) : (showScreen fb s).sp = s.sp := rfl
@[simp] theorem showScreen_pc (fb : Framebuffer) (s : State) : (showScreen fb s).pc = s.pc := rfl
@[simp] theorem showScreen_i (fb : Framebuffer) (s : State) : (showScreen fb s).i = s.i := rfl
@[simp] theorem showScreen_dt (fb : Framebuffer) (s : State) : (showScreen fb s).dt = s.dt := rfl
@[simp] theorem showScreen_st (fb : Framebuffer) (s : State) : (showScreen fb s).st = s.st := rfl
@[simp] theorem showScreen_fb (fb : Framebuffer) (s : State) : (showScreen fb s).fb = fb := rfl
@[simp] theorem showScreen_keypad (fb : Framebuffer) (s : State) : (showScreen fb s).keypad = s.keypad := rfl
@[simp] theorem showScreen_dirty (fb : Framebuffer) (s : State) : (showScreen fb s).dirty = true := rfl
@[simp] theorem showScreen_fault (fb : Framebuffer) (s : State) : (showScreen fb s).fault = s.fault := rfl
@[simp] theorem showScreen_draws (fb : Framebuffer) (s : State) : (showScreen fb s).draws = s.draws := rfl

/-! ### timerStep -/

@[simp] theorem timerStep_mem (s : State) : (timerStep s).mem = s.mem := rfl
@[simp] theorem timerStep_v (s : State) : (timerStep s).v = s.v := rfl
@[simp] theorem timerStep_stack (s : State) : (timerStep s).stack = s.stack := rfl
@[simp] theorem timerStep_sp (s : State) : (timerStep s).sp = s.sp := rfl
@[simp] theorem timerStep_pc (s : State) : (timerStep s).pc = s.pc := rfl
@[simp] theorem timerStep_i (s : State) : (timerStep s).i = s.i := rfl
@[simp] theorem timerStep_dt (s : State) : (timerStep s).dt = countDown s.dt := rfl
@[simp] theorem timerStep_st (s : State) : (timerStep s).st = countDown s.st := rfl
@[simp] theorem timerStep_fb (s : State) : (timerStep s).fb = s.fb := rfl
@[simp] theorem timerStep_keypad (s : State) : (timerStep s).keypad = s.keypad := rfl
@[simp] theorem timerStep_dirty (s : State) : (timerStep s).dirty = s.dirty := rfl
@[simp] theorem timerStep_fault (s : State) : (timerStep s).fault = s.fault := rfl
@[simp] theorem timerStep_draws (s : State) : (timerStep s).draws = s.draws := rfl

/-! ### raise -/

@[simp] theorem raise_mem (f : FaultRecord) (s : State) : (raise f s).mem = s.mem := rfl
@[simp] theorem raise_v (f : FaultRecord) (s : State) : (raise f s).v = s.v := rfl
@[simp] theorem raise_stack (f : FaultRecord) (s : State) : (raise f s).stack = s.stack := rfl
@[simp] theorem raise_sp (f : FaultRecord) (s : State) : (raise f s).sp = s.sp := rfl
@[simp] theorem raise_pc (f : FaultRecord) (s : State) : (raise f s).pc = s.pc := rfl
@[simp] theorem raise_i (f : FaultRecord) (s : State) : (raise f s).i = s.i := rfl
@[simp] theorem raise_dt (f : FaultRecord) (s : State) : (raise f s).dt = s.dt := rfl
@[simp] theorem raise_st (f : FaultRecord) (s : State) : (raise f s).st = s.st := rfl
@[simp] theorem raise_fb (f : FaultRecord) (s : State) : (raise f s).fb = s.fb := rfl
@[simp] theorem raise_keypad (f : FaultRecord) (s : State) : (raise f s).keypad = s.keypad := rfl
@[simp] theorem raise_dirty (f : FaultRecord) (s : State) : (raise f s).dirty = s.dirty := rfl
@[simp] theorem raise_fault (f : FaultRecord) (s : State) : (raise f s).fault = some f := rfl
@[simp] theorem raise_draws (f : FaultRecord) (s : State) : (raise f s).draws = s.draws := rfl

/-! ### hostWriteKey -/

@[simp] theorem hostWriteKey_mem (k : Reg) (b : Bool) (s : State) : (hostWriteKey k b s).mem = s.mem := rfl
@[simp] theorem hostWriteKey_v (k : Reg) (b : Bool) (s : State) : (hostWriteKey k b s).v = s.v := rfl
@[simp] theorem hostWriteKey_stack (k : Reg) (b : Bool) (s : State) : (hostWriteKey k b s).stack = s.stack := rfl
@[simp] theorem hostWriteKey_sp (k : Reg) (b : Bool) (s : State) : (hostWriteKey k b s).sp = s.sp := rfl
@[simp] theorem hostWriteKey_pc (k : Reg) (b : Bool) (s : State) : (hostWriteKey k b s).pc = s.pc := rfl
@[simp] theorem hostWriteKey_i (k : Reg) (b : Bool) (s : State) : (hostWriteKey k b s).i = s.i := rfl
@[simp] theorem hostWriteKey_dt (k : Reg) (b : Bool) (s : State) : (hostWriteKey k b s).dt = s.dt := rfl
@[simp] theorem hostWriteKey_st (k : Reg) (b : Bool) (s : State) : (hostWriteKey k b s).st = s.st := rfl
@[simp] theorem hostWriteKey_fb (k : Reg) (b : Bool) (s : State) : (hostWriteKey k b s).fb = s.fb := rfl
@[simp] theorem hostWriteKey_keypad (k : Reg) (b : Bool) (s : State) : (hostWriteKey k b s).keypad = s.keypad.set k b := rfl
@[simp] theorem hostWriteKey_dirty (k : Reg) (b : Bool) (s : State) : (hostWriteKey k b s).dirty = s.dirty := rfl
@[simp] theorem hostWriteKey_fault (k : Reg) (b : Bool) (s : State) : (hostWriteKey k b s).fault = s.fault := rfl
@[simp] theorem hostWriteKey_draws (k : Reg) (b : Bool) (s : State) : (hostWriteKey k b s).draws = s.draws := rfl

/-! ### hostClearDirty -/

@[simp] theorem hostClearDirty_mem (s : State) : (hostClearDirty s).mem = s.mem := rfl
@[simp] theorem hostClearDirty_v (s : State) : (hostClearDirty s).v = s.v := rfl
@[simp] theorem hostClearDirty_stack (s : State) : (hostClearDirty s).stack = s.stack := rfl
@[simp] theorem hostClearDirty_sp (s : State) : (hostClearDirty s).sp = s.sp := rfl
@[simp] theorem hostClearDirty_pc (s : State) : (hostClearDirty s).pc = s.pc := rfl
@[simp] theorem hostClearDirty_i (s : State) : (hostClearDirty s).i = s.i := rfl
@[simp] theorem hostClearDirty_dt (s : State) : (hostClearDirty s).dt = s.dt := rfl
@[simp] theorem hostClearDirty_st (s : State) : (hostClearDirty s).st = s.st := rfl
@[simp] theorem hostClearDirty_fb (s : State) : (hostClearDirty s).fb = s.fb := rfl
@[simp] theorem hostClearDirty_keypad (s : State) : (hostClearDirty s).keypad = s.keypad := rfl
@[simp] theorem hostClearDirty_dirty (s : State) : (hostClearDirty s).dirty = false := rfl
@[simp] theorem hostClearDirty_fault (s : State) : (hostClearDirty s).fault = s.fault := rfl
@[simp] theorem hostClearDirty_draws (s : State) : (hostClearDirty s).draws = s.draws := rfl

/-! ### drawRandom -/

@[simp] theorem drawRandom_fst (s : State) : (drawRandom s).1 = Config.randByte s.draws := rfl
@[simp] theorem drawRandom_snd_mem (s : State) : (drawRandom s).2.mem = s.mem := rfl
@[simp] theorem drawRandom_snd_v (s : State) : (drawRandom s).2.v = s.v := rfl
@[simp] theorem drawRandom_snd_stack (s : State) : (drawRandom s).2.stack = s.stack := rfl
@[simp] theorem drawRandom_snd_sp (s : State) : (drawRandom s).2.sp = s.sp := rfl
@[simp] theorem drawRandom_snd_pc (s : State) : (drawRandom s).2.pc = s.pc := rfl
@[simp] theorem drawRandom_snd_i (s : State) : (drawRandom s).2.i = s.i := rfl
@[simp] theorem drawRandom_snd_dt (s : State) : (drawRandom s).2.dt = s.dt := rfl
@[simp] theorem drawRandom_snd_st (s : State) : (drawRandom s).2.st = s.st := rfl
@[simp] theorem drawRandom_snd_fb (s : State) : (drawRandom s).2.fb = s.fb := rfl
@[simp] theorem drawRandom_snd_keypad (s : State) : (drawRandom s).2.keypad = s.keypad := rfl
@[simp] theorem drawRandom_snd_dirty (s : State) : (drawRandom s).2.dirty = s.dirty := rfl
@[simp] theorem drawRandom_snd_fault (s : State) : (drawRandom s).2.fault = s.fault := rfl
@[simp] theorem drawRandom_snd_draws (s : State) : (drawRandom s).2.draws = s.draws + 1 := rfl

end Sys2Proof.Machine
end

