-- ==== Sys2Proof/Laws/Ops.lean ====
section
/-! SUPPORT. One lemma for each shared operation that says everything it can do; proofs cite these and do not unfold it. -/

namespace Sys2Proof.Machine

/-! ### Registers -/

@[simp] theorem readV_writeV_self (x : Reg) (b : Byte) (s : State) : readV (writeV x b s) x = b := by
  simp [readV]

theorem readV_writeV_ne {x y : Reg} (b : Byte) (s : State) (h : y ≠ x) : readV (writeV x b s) y = readV s y := by
  have : x.val ≠ y.val := fun e => h (Fin.ext e.symm)
  simp [readV, this]

/-- Reading any register after one write. -/
theorem readV_writeV (x y : Reg) (b : Byte) (s : State) :
    readV (writeV x b s) y = if y = x then b else readV s y := by
  split
  · next h => subst h; simp
  · next h => exact readV_writeV_ne b s h

/-- A state with the same registers reads the same. -/
theorem readV_congr {s t : State} (h : t.v = s.v) (x : Reg) : readV t x = readV s x := by simp [readV, h]

/-- Writes to two different registers commute. -/
theorem writeV_comm {x y : Reg} (a b : Byte) (s : State) (h : x ≠ y) :
    writeV x a (writeV y b s) = writeV y b (writeV x a s) := by
  have : y.val ≠ x.val := fun e => h (Fin.ext e.symm)
  simp only [writeV]
  rw [Vector.set_comm _ _ this]

/-- The later of two writes to one register stands. -/
theorem writeV_writeV (x : Reg) (a b : Byte) (s : State) : writeV x a (writeV x b s) = writeV x a s := by
  simp [writeV]

/-- Reading any register after a run of registers was loaded from register k on. -/
theorem loadRegs_get (v : Vector Byte 16) (k : Nat) (bytes : List Byte) (j : Nat) (hj : j < 16) :
    (loadRegs v k bytes)[j] = if k ≤ j ∧ j < k + bytes.length then bytes.getD (j - k) 0 else v[j] := by
  induction bytes generalizing v k with
  | nil => simp [loadRegs]
  | cons b rest ih =>
    rw [loadRegs, ih]
    by_cases h1 : k = j
    · subst h1
      simp
    · by_cases h2 : k + 1 ≤ j ∧ j < k + 1 + rest.length
      · obtain ⟨d, rfl⟩ := Nat.exists_eq_add_of_le h2.1
        rw [if_pos h2, if_pos (by simp; omega)]
        rw [show k + 1 + d - (k + 1) = d by omega, show k + 1 + d - k = d + 1 by omega, List.getD_cons_succ]
      · rw [if_neg h2, if_neg (by simp; omega)]
        simp [h1]

/-! ### Call stack -/

/-- Everything a push can do (R27). -/
theorem push_cases (w : Word) (s : State) :
    (∃ h : s.sp.val < 16, push w s = .ok { s with stack := s.stack.set s.sp.val w, sp := ⟨s.sp.val + 1, by omega⟩ }) ∨
    (s.sp = 16 ∧ push w s = .error ⟨.stackOverflow, s.pc.toNat⟩) := by
  by_cases h : s.sp.val < 16
  · exact .inl ⟨h, by simp [push, h]⟩
  · have hs := s.sp.isLt
    exact .inr ⟨Fin.ext (by simp; omega), by simp [push, h]⟩

/-- Everything a pop can do (R28). -/
theorem pop_cases (s : State) :
    (s.sp.val ≠ 0 ∧ pop s = .ok (s.stack[s.sp.val - 1], { s with sp := ⟨s.sp.val - 1, by omega⟩ })) ∨
    (s.sp = 0 ∧ pop s = .error ⟨.stackUnderflow, s.pc.toNat⟩) := by
  by_cases h : s.sp.val = 0
  · exact .inr ⟨Fin.ext (by simp [h]), by simp [pop, h]⟩
  · exact .inl ⟨h, by simp [pop, h]⟩

/-! ### Framebuffer -/

/-- Reading any pixel after one pixel was set. -/
theorem pixel_setPixel (fb : Framebuffer) (r r' : Fin 32) (c c' : Fin 64) (b : Bool) :
    pixel (setPixel fb r c b) r' c' = if r' = r ∧ c' = c then b else pixel fb r' c' := by
  unfold pixel setPixel
  by_cases hr : r' = r
  · subst hr
    by_cases hc : c' = c
    · subst hc
      simp
    · have : c.val ≠ c'.val := fun e => hc (Fin.ext e.symm)
      simp [hc, this]
  · have : r.val ≠ r'.val := fun e => hr (Fin.ext e.symm)
    simp [hr, this]

/-- What one sprite bit does: a bit of 0 changes nothing, a bit of 1 flips its pixel. -/
theorem pixel_drawBit (r r' : Fin 32) (c c' : Fin 64) (bit : Bool) (cv : Canvas) :
    pixel (drawBit r c bit cv).1 r' c' = (pixel cv.1 r' c' ^^ (decide (r' = r ∧ c' = c) && bit)) := by
  simp only [drawBit, pixel_setPixel]
  split
  · next h => obtain ⟨rfl, rfl⟩ := h; simp
  · next h => simp [h]

@[simp] theorem pixel_blankScreen (r : Fin 32) (c : Fin 64) : pixel blankScreen r c = false := by
  simp [pixel, blankScreen]

/-! ### Keypad and timers -/

/-- The scan of R183 takes the highest key pressed, and takes one if any is pressed. -/
theorem scanKeys_spec (keys : List Bool) (k : Nat) (found : Option Nat) :
    (∀ j, scanKeys keys k found = some j →
      (k ≤ j ∧ keys.getD (j - k) false = true ∧ ∀ i, j - k < i → keys.getD i false = false) ∨
      (found = some j ∧ ∀ i, keys.getD i false = false)) ∧
    (scanKeys keys k found = none → found = none ∧ ∀ i, keys.getD i false = false) := by
  induction keys generalizing k found with
  | nil => exact ⟨fun j h => .inr ⟨h, by simp⟩, fun h => ⟨h, by simp⟩⟩
  | cons b rest ih =>
    obtain ⟨ih1, ih2⟩ := ih (k + 1) (if b then some k else found)
    simp only [scanKeys]
    constructor
    · intro j h
      obtain ⟨hk, hj, hhi⟩ | ⟨hf, hn⟩ := ih1 j h
      · obtain ⟨d, rfl⟩ := Nat.exists_eq_add_of_le hk
        rw [show k + 1 + d - (k + 1) = d by omega] at hj hhi
        rw [show k + 1 + d - k = d + 1 by omega]
        refine .inl ⟨by omega, by simpa using hj, ?_⟩
        intro i hi
        obtain ⟨i, rfl⟩ := Nat.exists_eq_add_of_le' (show 1 ≤ i by omega)
        simpa using hhi i (by omega)
      · cases b with
        | true =>
          obtain rfl : k = j := by simpa using hf
          refine .inl ⟨le_rfl, by simp, ?_⟩
          intro i hi
          obtain ⟨i, rfl⟩ := Nat.exists_eq_add_of_le' (show 1 ≤ i by omega)
          simpa using hn i
        | false =>
          refine .inr ⟨by simpa using hf, ?_⟩
          intro i
          cases i with
          | zero => simp
          | succ i => simpa using hn i
    · intro h
      obtain ⟨hf, hn⟩ := ih2 h
      cases b with
      | true => simp at hf
      | false =>
        refine ⟨by simpa using hf, ?_⟩
        intro i
        cases i with
        | zero => simp
        | succ i => simpa using hn i

/-- A timer counts down to 0 and stays there (R30). -/
theorem countDown_toNat (t : Byte) : (countDown t).toNat = t.toNat - 1 := by
  unfold countDown
  split
  · next h => subst h; rfl
  · next h =>
    have h0 : t.toNat ≠ 0 := fun e => h (BitVec.eq_of_toNat_eq e)
    have h1 := t.isLt
    have one : (1 : Byte).toNat = 1 := rfl
    rw [BitVec.toNat_sub, one]
    omega

/-! ### Ending an instruction -/

/-- Everything `complete` can answer: the instruction's own next state, or the fault taken from the state before it. -/
theorem complete_cases (s : State) (r : Except FaultRecord State) :
    (∃ t, r = .ok t ∧ complete s r = .next t) ∨ (∃ f, r = .error f ∧ complete s r = .next (raise f s)) := by
  cases r with
  | ok t => exact .inl ⟨t, rfl, rfl⟩
  | error f => exact .inr ⟨f, rfl, rfl⟩

@[simp] theorem complete_ok (s t : State) : complete s (.ok t) = .next t := rfl
@[simp] theorem complete_error (s : State) (f : FaultRecord) : complete s (.error f) = .next (raise f s) := rfl

end Sys2Proof.Machine
end

