-- ==== Sys2Proof/Laws/PerInstr.lean ====
section
/-! SUPPORT. One fact about every instruction as syntax: its opcode matches its row of the opcode map (30_encoding.md R77). -/

namespace Sys2Proof.Laws.EncodesRow

/-- The canonical opcode of an instruction passes the match and mask test of its row. -/
def Statement (i : Instr) : Prop := encode i &&& (rowOf i).mask = (rowOf i).pat

theorem cls : Statement .cls := rfl
theorem ret : Statement .ret := rfl
theorem jp (nnn : BitVec 12) : Statement (.jp nnn) := packNNN_and_class 0x1 nnn
theorem call (nnn : BitVec 12) : Statement (.call nnn) := packNNN_and_class 0x2 nnn
theorem seVB (x : Reg) (nn : Byte) : Statement (.seVB x nn) := packXNN_and_class 0x3 x nn
theorem sneVB (x : Reg) (nn : Byte) : Statement (.sneVB x nn) := packXNN_and_class 0x4 x nn
theorem seVV (x y : Reg) : Statement (.seVV x y) := packXYN_and_class 0x5 x y 0x0
theorem ldVB (x : Reg) (nn : Byte) : Statement (.ldVB x nn) := packXNN_and_class 0x6 x nn
theorem addVB (x : Reg) (nn : Byte) : Statement (.addVB x nn) := packXNN_and_class 0x7 x nn
theorem ldVV (x y : Reg) : Statement (.ldVV x y) := packXYN_and_selector 0x8 x y 0x0
theorem orVV (x y : Reg) : Statement (.orVV x y) := packXYN_and_selector 0x8 x y 0x1
theorem andVV (x y : Reg) : Statement (.andVV x y) := packXYN_and_selector 0x8 x y 0x2
theorem xorVV (x y : Reg) : Statement (.xorVV x y) := packXYN_and_selector 0x8 x y 0x3
theorem addVV (x y : Reg) : Statement (.addVV x y) := packXYN_and_selector 0x8 x y 0x4
theorem subVV (x y : Reg) : Statement (.subVV x y) := packXYN_and_selector 0x8 x y 0x5
theorem shrV (x y : Reg) : Statement (.shrV x y) := packXYN_and_selector 0x8 x y 0x6
theorem subnVV (x y : Reg) : Statement (.subnVV x y) := packXYN_and_selector 0x8 x y 0x7
theorem shlV (x y : Reg) : Statement (.shlV x y) := packXYN_and_selector 0x8 x y 0xE
theorem sneVV (x y : Reg) : Statement (.sneVV x y) := packXYN_and_class 0x9 x y 0x0
theorem ldI (nnn : BitVec 12) : Statement (.ldI nnn) := packNNN_and_class 0xA nnn
theorem jpV0 (nnn : BitVec 12) : Statement (.jpV0 nnn) := packNNN_and_class 0xB nnn
theorem rnd (x : Reg) (nn : Byte) : Statement (.rnd x nn) := packXNN_and_class 0xC x nn
theorem drw (x y : Reg) (n : Nat) : Statement (.drw x y n) := packXYN_and_class 0xD x y (BitVec.ofNat 4 n)
theorem skp (x : Reg) : Statement (.skp x) := packXNN_and_selector 0xE x 0x9E
theorem sknp (x : Reg) : Statement (.sknp x) := packXNN_and_selector 0xE x 0xA1
theorem ldVDT (x : Reg) : Statement (.ldVDT x) := packXNN_and_selector 0xF x 0x07
theorem ldVK (x : Reg) : Statement (.ldVK x) := packXNN_and_selector 0xF x 0x0A
theorem ldDTV (x : Reg) : Statement (.ldDTV x) := packXNN_and_selector 0xF x 0x15
theorem ldSTV (x : Reg) : Statement (.ldSTV x) := packXNN_and_selector 0xF x 0x18
theorem addIV (x : Reg) : Statement (.addIV x) := packXNN_and_selector 0xF x 0x1E
theorem ldFV (x : Reg) : Statement (.ldFV x) := packXNN_and_selector 0xF x 0x29
theorem ldBV (x : Reg) : Statement (.ldBV x) := packXNN_and_selector 0xF x 0x33
theorem ldMV (x : Reg) : Statement (.ldMV x) := packXNN_and_selector 0xF x 0x55
theorem ldVM (x : Reg) : Statement (.ldVM x) := packXNN_and_selector 0xF x 0x65

end Sys2Proof.Laws.EncodesRow
end

