-- ==== Sys2Proof/Laws/Step.lean ====
section
/-! SUPPORT. What one instruction and one tick can do, said once (40_cycle.md R90, R96, R97). -/

namespace Sys2Proof.Machine

@[simp] theorem writeAlu_fault (x : Reg) (rf : Byte × Byte) (s : State) : (writeAlu x rf s).fault = s.fault := by
  unfold writeAlu writeResultFlag
  split
  · split <;> rfl
  · rfl

/-- What the flag-writing end of an ALU instruction leaves alone. -/
theorem writeAlu_rest (x : Reg) (rf : Byte × Byte) (s : State) :
    writeAlu x rf s = { s with v := (writeAlu x rf s).v } := by
  unfold writeAlu writeResultFlag
  split
  · split <;> rfl
  · rfl

/-- The registers after the flag-writing end of an ALU instruction (R146). -/
theorem readV_writeAlu (x r : Reg) (rf : Byte × Byte) (s : State) :
    readV (writeAlu x rf s) r =
      if r = vF then
        (if x = vF then (match Config.vfWriteOrder with | .flagLast => rf.2 | .resultLast => rf.1) else rf.2)
      else if r = x then rf.1 else readV s r := by
  unfold writeAlu writeResultFlag
  by_cases hx : x = vF
  · subst hx
    cases Config.vfWriteOrder <;> by_cases hr : r = vF <;> simp [readV_writeV, hr]
  · by_cases hr : r = vF
    · simp [hx, hr]
    · simp [hx, hr, readV_writeV]

/-! ### Operands -/

/-- Everything a read through I can do (R56, R166). -/
theorem readAtI_eq (n : Nat) (s : State) :
    readAtI n s =
      if n = 0 ∨ s.i.toNat + n ≤ Config.memSize then .ok ((List.range' s.i.toNat n).map (Memory.read s.mem))
      else .error ⟨.memoryOutOfRange, max s.i.toNat Config.memSize⟩ :=
  memReads_eq _ _ _

/-- Everything a store through I can do (R56, R166). -/
theorem writeAtI_eq (bytes : List Byte) (s : State) :
    writeAtI bytes s =
      if bytes = [] ∨ s.i.toNat + bytes.length ≤ Config.memSize then
        .ok { s with mem := Memory.load s.mem s.i.toNat bytes }
      else .error ⟨.memoryOutOfRange, max s.i.toNat Config.memSize⟩ := by
  unfold writeAtI
  rw [memWrites_eq]
  by_cases h : bytes = [] ∨ s.i.toNat + bytes.length ≤ Config.memSize
  · simp only [if_pos h]
  · simp only [if_neg h]

/-- Everything reading a key flag can do (R180, D8). -/
theorem keyState_cases (b : Byte) (s : State) :
    (∃ h : b.toNat < 16, keyState b s = .ok s.keypad[b.toNat]) ∨
    (16 ≤ b.toNat ∧ keyState b s = .error ⟨.keyIndexOutOfRange, b.toNat⟩) := by
  by_cases h : b.toNat < 16
  · exact .inl ⟨h, by simp [keyState, h]⟩
  · exact .inr ⟨by omega, by simp [keyState, h]⟩

@[simp] theorem dumpedRegs_length (x : Reg) (s : State) : (dumpedRegs x s).length = x.val + 1 := by
  have := x.isLt
  simp [dumpedRegs]

/-! ### One instruction -/

/-- What the fallible effects share: success leaves the latch as it was. -/
def KeepsLatch (s : State) (r : Except FaultRecord State) : Prop := ∀ t, r = .ok t → t.fault = s.fault

theorem returnFrom_keepsLatch (s : State) : KeepsLatch s (returnFrom s) := by
  intro t h
  unfold returnFrom at h
  obtain ⟨_, hp⟩ | ⟨_, hp⟩ := pop_cases s <;> rw [hp] at h
  · obtain rfl := Except.ok.inj h; rfl
  · cases h

theorem callTo_keepsLatch (nnn : BitVec 12) (s : State) : KeepsLatch s (callTo nnn s) := by
  intro t h
  unfold callTo at h
  obtain ⟨_, hp⟩ | ⟨_, hp⟩ := push_cases s.pc s <;> rw [hp] at h
  · obtain rfl := Except.ok.inj h; rfl
  · cases h

theorem drawAt_keepsLatch (x y : Reg) (n : Nat) (s : State) : KeepsLatch s (drawAt x y n s) := by
  intro t h
  unfold drawAt at h
  split at h
  · cases h
  · obtain rfl := Except.ok.inj h; rfl

theorem skipOnKey_keepsLatch (want : Bool) (x : Reg) (s : State) : KeepsLatch s (skipOnKey want x s) := by
  intro t h
  unfold skipOnKey at h
  split at h
  · cases h
  · obtain rfl := Except.ok.inj h; rfl

theorem writeAtI_keepsLatch (bytes : List Byte) (s : State) : KeepsLatch s (writeAtI bytes s) := by
  intro t h
  rw [writeAtI_eq] at h
  split at h
  · obtain rfl := Except.ok.inj h; rfl
  · cases h

theorem storeDigits_keepsLatch (x : Reg) (s : State) : KeepsLatch s (storeDigits x s) := by
  intro t h
  unfold storeDigits at h
  split at h
  · cases h
  · next s' hw =>
    obtain rfl := Except.ok.inj h
    have hs : s'.fault = s.fault := writeAtI_keepsLatch _ _ _ hw
    exact hs

theorem dumpRegs_keepsLatch (x : Reg) (s : State) : KeepsLatch s (dumpRegs x s) := by
  intro t h
  unfold dumpRegs at h
  split at h
  · cases h
  · next s' hw =>
    obtain rfl := Except.ok.inj h
    have hs : s'.fault = s.fault := writeAtI_keepsLatch _ _ _ hw
    exact hs

theorem restoreRegs_keepsLatch (x : Reg) (s : State) : KeepsLatch s (restoreRegs x s) := by
  intro t h
  unfold restoreRegs at h
  split at h
  · cases h
  · obtain rfl := Except.ok.inj h; rfl

/-- Either a fault was taken from the state before the instruction, or the latch is as it was. -/
def TakesFaultOrKeepsLatch (s : State) (o : Host.Outcome State Fault Refusal) : Prop :=
  (∃ f, o = .next (raise f s)) ∨ (∃ t, o = .next t ∧ t.fault = s.fault)

theorem complete_takesFaultOrKeepsLatch {s : State} {r : Except FaultRecord State} (h : KeepsLatch s r) :
    TakesFaultOrKeepsLatch s (complete s r) := by
  obtain ⟨t, rfl, hc⟩ | ⟨f, -, hc⟩ := complete_cases s r
  · exact .inr ⟨t, hc, h t rfl⟩
  · exact .inl ⟨f, hc⟩

theorem next_takesFaultOrKeepsLatch {s t : State} (h : t.fault = s.fault) : TakesFaultOrKeepsLatch s (.next t) :=
  .inr ⟨t, rfl, h⟩

theorem takeKey_fault (x : Reg) (s : State) : (takeKey x s).fault = s.fault := by
  unfold takeKey
  split <;> rfl

/-- Every instruction answers a next state: one with a fault taken, or one with its effect (R94, R97). -/
theorem exec_cases (i : Instr) (s : State) : TakesFaultOrKeepsLatch s (exec i s) := by
  cases i with
  | cls => exact next_takesFaultOrKeepsLatch rfl
  | ret => exact complete_takesFaultOrKeepsLatch (returnFrom_keepsLatch s)
  | jp nnn => exact next_takesFaultOrKeepsLatch rfl
  | call nnn => exact complete_takesFaultOrKeepsLatch (callTo_keepsLatch nnn s)
  | seVB x nn => exact next_takesFaultOrKeepsLatch rfl
  | sneVB x nn => exact next_takesFaultOrKeepsLatch rfl
  | seVV x y => exact next_takesFaultOrKeepsLatch rfl
  | ldVB x nn => exact next_takesFaultOrKeepsLatch rfl
  | addVB x nn => exact next_takesFaultOrKeepsLatch rfl
  | ldVV x y => exact next_takesFaultOrKeepsLatch rfl
  | orVV x y => exact next_takesFaultOrKeepsLatch rfl
  | andVV x y => exact next_takesFaultOrKeepsLatch rfl
  | xorVV x y => exact next_takesFaultOrKeepsLatch rfl
  | addVV x y => exact next_takesFaultOrKeepsLatch (writeAlu_fault _ _ _)
  | subVV x y => exact next_takesFaultOrKeepsLatch (writeAlu_fault _ _ _)
  | shrV x y => exact next_takesFaultOrKeepsLatch (writeAlu_fault _ _ _)
  | subnVV x y => exact next_takesFaultOrKeepsLatch (writeAlu_fault _ _ _)
  | shlV x y => exact next_takesFaultOrKeepsLatch (writeAlu_fault _ _ _)
  | sneVV x y => exact next_takesFaultOrKeepsLatch rfl
  | ldI nnn => exact next_takesFaultOrKeepsLatch rfl
  | jpV0 nnn => exact next_takesFaultOrKeepsLatch rfl
  | rnd x nn => exact next_takesFaultOrKeepsLatch rfl
  | drw x y n => exact complete_takesFaultOrKeepsLatch (drawAt_keepsLatch x y n s)
  | skp x => exact complete_takesFaultOrKeepsLatch (skipOnKey_keepsLatch true x s)
  | sknp x => exact complete_takesFaultOrKeepsLatch (skipOnKey_keepsLatch false x s)
  | ldVDT x => exact next_takesFaultOrKeepsLatch rfl
  | ldVK x => exact next_takesFaultOrKeepsLatch (takeKey_fault x s)
  | ldDTV x => exact next_takesFaultOrKeepsLatch rfl
  | ldSTV x => exact next_takesFaultOrKeepsLatch rfl
  | addIV x => exact next_takesFaultOrKeepsLatch rfl
  | ldFV x => exact next_takesFaultOrKeepsLatch rfl
  | ldBV x => exact complete_takesFaultOrKeepsLatch (storeDigits_keepsLatch x s)
  | ldMV x => exact complete_takesFaultOrKeepsLatch (dumpRegs_keepsLatch x s)
  | ldVM x => exact complete_takesFaultOrKeepsLatch (restoreRegs_keepsLatch x s)

/-! ### One tick -/

/-- Everything a tick can do: the latched fault again; a fault of fetch or decode; a fault of the instruction; or the
instruction's effect and then the timer step. -/
theorem step_cases {s t : State} (h : step s = .next t) :
    (∃ f, s.fault = some f ∧ t = s) ∨
    (s.fault = none ∧ ∃ f, fetchDecode s = .error f ∧ t = raise f s) ∨
    (s.fault = none ∧ ∃ i f, fetchDecode s = .ok i ∧ exec i s = .next (raise f s) ∧ t = raise f s) ∨
    (s.fault = none ∧ ∃ i u, fetchDecode s = .ok i ∧ exec i s = .next u ∧ u.fault = none ∧ t = timerStep u) := by
  unfold step tick at h
  cases hf : s.fault with
  | some f =>
    rw [hf] at h
    exact .inl ⟨f, rfl, (Host.Outcome.next.inj h).symm⟩
  | none =>
    rw [hf] at h
    cases hd : fetchDecode s with
    | error f =>
      rw [hd] at h
      exact .inr (.inl ⟨rfl, f, rfl, (Host.Outcome.next.inj h).symm⟩)
    | ok i =>
      rw [hd] at h
      obtain ⟨f, he⟩ | ⟨u, he, hu⟩ := exec_cases i s
      · simp only [he] at h
        refine .inr (.inr (.inl ⟨rfl, i, f, rfl, he, ?_⟩))
        have := Host.Outcome.next.inj h
        simpa [finishTick] using this.symm
      · simp only [he] at h
        have hn : u.fault = none := hu.trans hf
        refine .inr (.inr (.inr ⟨rfl, i, u, rfl, he, hn, ?_⟩))
        have := Host.Outcome.next.inj h
        simpa [finishTick, hn] using this.symm

end Sys2Proof.Machine
end

