-- ==== Sys2Proof/Tests/Slice0.lean ====
section
/-! SUPPORT. Small tests of one word or one step, their expected results taken from spec/ (30_encoding.md R77 and
95_test_vectors.md L1 and L2), and a named witness of the hypotheses of every statement that has some. -/

namespace Sys2Proof.Tests

open Sys2Proof Sys2Proof.Machine

/-! ## Helpers -/

/-- The state of a vector of 95_test_vectors.md: init with the word at pc, as its conventions say. -/
def start (w : Nat) : State := State.reset.withFetchWord 16 w

/-- V[x] set. -/
def withV (x : Reg) (b : Byte) (s : State) : State := writeV x b s

/-- I set. -/
def withI (w : Word) (s : State) : State := { s with i := w }

/-- The word placed at another pc. -/
def startAt (pc : Word) (w : Nat) : State := { State.reset with pc := pc }.withFetchWord 16 w

/-- A byte of memory set. -/
def withMem (a : Nat) (b : Byte) (s : State) : State := { s with mem := Memory.write s.mem a b }

/-- A key held down. -/
def withKey (k : Reg) (s : State) : State := hostWriteKey k true s

/-- The pixel at row r, column c on. -/
def withPixel (r : Fin 32) (c : Fin 64) (s : State) : State := { s with fb := setPixel s.fb r c true }

/-- Entries on the stack: slot 0 holds `w`, and `n` are counted. -/
def withStack (w : Word) (n : Fin 17) (s : State) : State := { s with stack := s.stack.set 0 w, sp := n }

/-- The state a step leads to. -/
def after (s : State) : State :=
  match step s with
  | .next t => t
  | .fault _ => s
  | .refused _ => s

/-- The state one instruction leads to. -/
def done (i : Instr) (s : State) : State :=
  match exec i s with
  | .next t => t
  | .fault _ => s
  | .refused _ => s

/-! ## Well-formedness (30_encoding.md R72) -/

theorem test_wellFormed_refuses_sprite_of_16_rows : (Instr.drw 0 0 16).wellFormed = false := by decide
theorem test_wellFormed_admits_sprite_of_15_rows : (Instr.drw 15 15 15).wellFormed = true := by decide

/-! ## Decoding: one word or more of every row of R77, written from its pattern -/

theorem test_decode_class_0_to_5 :
    decode 0x00E0 = .ok .cls ∧ decode 0x01E0 = .ok .cls ∧ decode 0x00EE = .ok .ret ∧ decode 0x0FEE = .ok .ret ∧
    decode 0x1ABC = .ok (.jp 0xABC) ∧ decode 0x2ABC = .ok (.call 0xABC) ∧ decode 0x3A5C = .ok (.seVB 10 0x5C) ∧
    decode 0x4A5C = .ok (.sneVB 10 0x5C) ∧ decode 0x5AB0 = .ok (.seVV 10 11) ∧ decode 0x5ABF = .ok (.seVV 10 11) := by
  decide

theorem test_decode_class_6_to_8 :
    decode 0x6A05 = .ok (.ldVB 10 0x05) ∧ decode 0x7A5C = .ok (.addVB 10 0x5C) ∧ decode 0x8AB0 = .ok (.ldVV 10 11) ∧
    decode 0x8AB1 = .ok (.orVV 10 11) ∧ decode 0x8AB2 = .ok (.andVV 10 11) ∧ decode 0x8AB3 = .ok (.xorVV 10 11) ∧
    decode 0x8AB4 = .ok (.addVV 10 11) ∧ decode 0x8AB5 = .ok (.subVV 10 11) ∧ decode 0x8AB6 = .ok (.shrV 10 11) ∧
    decode 0x8AB7 = .ok (.subnVV 10 11) ∧ decode 0x8ABE = .ok (.shlV 10 11) := by
  decide

theorem test_decode_class_9_to_E :
    decode 0x9AB0 = .ok (.sneVV 10 11) ∧ decode 0x9AB7 = .ok (.sneVV 10 11) ∧ decode 0xAABC = .ok (.ldI 0xABC) ∧
    decode 0xBABC = .ok (.jpV0 0xABC) ∧ decode 0xCA5C = .ok (.rnd 10 0x5C) ∧ decode 0xDABC = .ok (.drw 10 11 12) ∧
    decode 0xEA9E = .ok (.skp 10) ∧ decode 0xEAA1 = .ok (.sknp 10) := by
  decide

theorem test_decode_class_F :
    decode 0xFA07 = .ok (.ldVDT 10) ∧ decode 0xFA0A = .ok (.ldVK 10) ∧ decode 0xFA15 = .ok (.ldDTV 10) ∧
    decode 0xFA18 = .ok (.ldSTV 10) ∧ decode 0xFA1E = .ok (.addIV 10) ∧ decode 0xFA29 = .ok (.ldFV 10) ∧
    decode 0xFA33 = .ok (.ldBV 10) ∧ decode 0xFA55 = .ok (.ldMV 10) ∧ decode 0xFA65 = .ok (.ldVM 10) := by
  decide

/-- R78, and the words 95_test_vectors.md L2.3 #31, #32, L2.5 #5 and L2.6 #1 to #4 call unknown. -/
theorem test_decode_unknown :
    decode 0x0000 = .error (.unknownOpcode 0x0000) ∧ decode 0x0123 = .error (.unknownOpcode 0x0123) ∧
    decode 0x8128 = .error (.unknownOpcode 0x8128) ∧ decode 0x812F = .error (.unknownOpcode 0x812F) ∧
    decode 0xE1A2 = .error (.unknownOpcode 0xE1A2) ∧ decode 0xF1FF = .error (.unknownOpcode 0xF1FF) ∧
    decode 0xFFFF = .error (.unknownOpcode 0xFFFF) := by
  decide

/-- R53: the byte at the lower address is the high one, and decoding takes two bytes (R80). -/
theorem test_decodeBytes : decodeBytes [0x6A, 0x05, 0x77] = .ok (.ldVB 10 5, [0x77]) ∧
    decodeBytes [0x6A] = .error .tooFewBytes ∧ encodeBytes (.ldVB 10 5) = [0x6A, 0x05] := by
  decide

theorem test_decodeTableWord : decodeTableWord 16 0xD12F = some (.drw 1 2 15) ∧ decodeTableWord 16 0xFFFF = none := by
  decide

/-! ## Display (L2.1) -/

/-- L2.1 #1. -/
theorem test_cls : pixel (after (withPixel 3 5 (start 0x00E0))).fb 3 5 = false ∧
    (after (withPixel 3 5 (start 0x00E0))).dirty = true ∧ (after (withPixel 3 5 (start 0x00E0))).pc = 0x202 := by
  decide

/-- L2.1 #6: column wrap. -/
theorem test_drw_wraps_columns :
    let t := after (withI 0x300 (withMem 0x300 0xFF (withV 1 60 (start 0xD121))))
    pixel t.fb 0 60 = true ∧ pixel t.fb 0 63 = true ∧ pixel t.fb 0 0 = true ∧ pixel t.fb 0 3 = true ∧
    pixel t.fb 0 4 = false ∧ pixel t.fb 0 59 = false ∧ readV t vF = 0 ∧ t.dirty = true := by
  decide

/-- L2.1 #11, with the pixel already on, so that VF ends as the collision: the column is the old VF. -/
theorem test_drw_reads_vf_before_writing_it :
    let t := after (withI 0x300 (withMem 0x300 0x80 (withV 15 8 (withPixel 0 8 (start 0xDF01)))))
    pixel t.fb 0 8 = false ∧ readV t vF = 1 := by
  decide

/-! ## Control flow (L2.2) -/

/-- L2.2 #1. -/
theorem test_ret :
    let t := after (withStack 0x204 1 (startAt 0x212 0x00EE))
    t.pc = 0x206 ∧ t.sp = 0 ∧ t.stack[0] = 0x204 := by
  decide

/-- L2.2 #2. -/
theorem test_ret_underflow : step (start 0x00EE) = .next (raise ⟨.stackUnderflow, 0x200⟩ (start 0x00EE)) := by rfl

/-- L2.2 #3. -/
theorem test_jp : (after (start 0x1234)).pc = 0x234 := by decide

/-- L2.2 #6. -/
theorem test_call :
    let t := after (startAt 0x204 0x2210)
    t.stack[0] = 0x204 ∧ t.sp = 1 ∧ t.pc = 0x210 := by
  decide

/-- L2.2 #7, at its tick 17. -/
theorem test_call_overflow :
    (after (withStack 0x200 16 (start 0x2200))).fault = some ⟨.stackOverflow, 0x200⟩ ∧
    (after (withStack 0x200 16 (start 0x2200))).sp = 16 := by
  decide

/-- L2.2 #8, #9. -/
theorem test_se_imm :
    (after (withV 3 0x12 (start 0x3312))).pc = 0x204 ∧ (after (withV 3 0x13 (start 0x3312))).pc = 0x202 := by
  decide

/-- L2.2 #11, L1.2. -/
theorem test_sne_imm :
    (after (withV 3 0x13 (start 0x4312))).pc = 0x204 ∧ (after (withV 3 0x12 (start 0x4312))).pc = 0x202 := by
  decide

/-- L2.2 #13; not equal: R125. -/
theorem test_se_reg :
    (after (withV 1 3 (withV 2 3 (start 0x5121)))).pc = 0x204 ∧ (after (withV 1 3 (start 0x5120))).pc = 0x202 := by
  decide

/-- L2.2 #15, #16. -/
theorem test_sne_reg :
    (after (withV 1 7 (withV 2 8 (start 0x9120)))).pc = 0x204 ∧ (after (withV 1 7 (start 0x9110))).pc = 0x202 := by
  decide

/-- L2.2 #17, #18. -/
theorem test_jp_v0 :
    (after (withV 0 0x10 (start 0xB300))).pc = 0x310 ∧ (after (withV 0 0xFF (start 0xBFFF))).pc = 0x10FE := by
  decide

/-! ## Registers and ALU (L2.3) -/

/-- L2.3 #1, #2. -/
theorem test_ld_imm : readV (after (start 0x6A05)) 10 = 0x05 ∧ readV (after (start 0x6FAA)) vF = 0xAA ∧
    (after (start 0x6A05)).pc = 0x202 := by
  decide

/-- L2.3 #3. -/
theorem test_add_imm :
    let t := after (withV 2 0xFE (withV 15 0x55 (start 0x7203)))
    readV t 2 = 0x01 ∧ readV t vF = 0x55 := by
  decide

/-- L2.3 #5. -/
theorem test_ld_reg : readV (after (withV 2 0x9C (start 0x8120))) 1 = 0x9C := by decide

/-- L2.3 #10. -/
theorem test_or :
    let t := after (withV 1 0x01 (withV 2 0x02 (withV 15 0x77 (start 0x8121))))
    readV t 1 = 0x03 ∧ readV t vF = 0x77 := by
  decide

/-- L2.3 #7. -/
theorem test_and : readV (after (withV 1 0xF0 (withV 2 0x3C (start 0x8122)))) 1 = 0x30 := by decide

/-- L2.3 #8. -/
theorem test_xor : readV (after (withV 1 0xFF (withV 2 0x0F (start 0x8123)))) 1 = 0xF0 := by decide

/-- L2.3 #11. -/
theorem test_add_carry :
    let t := after (withV 1 0xFF (withV 2 0x01 (start 0x8124)))
    readV t 1 = 0x00 ∧ readV t vF = 1 := by
  decide

/-- L2.3 #14: y = F reads the old VF. -/
theorem test_add_reads_old_vf :
    let t := after (withV 1 0x10 (withV 15 0xF0 (start 0x81F4)))
    readV t 1 = 0x00 ∧ readV t vF = 1 := by
  decide

/-- L2.3 #15. -/
theorem test_sub_borrow :
    let t := after (withV 1 0x03 (withV 2 0x05 (start 0x8125)))
    readV t 1 = 0xFE ∧ readV t vF = 0 := by
  decide

/-- L2.3 #16. -/
theorem test_sub_equal :
    let t := after (withV 1 0x05 (withV 2 0x05 (start 0x8125)))
    readV t 1 = 0x00 ∧ readV t vF = 1 := by
  decide

/-- L2.3 #21. -/
theorem test_shr :
    let t := after (withV 1 0x05 (withV 9 0x33 (start 0x8196)))
    readV t 1 = 0x02 ∧ readV t vF = 1 ∧ readV t 9 = 0x33 := by
  decide

/-- L2.3 #19. -/
theorem test_subn :
    let t := after (withV 1 0x03 (withV 2 0x05 (start 0x8127)))
    readV t 1 = 0x02 ∧ readV t vF = 1 := by
  decide

/-- L1.5. -/
theorem test_shl :
    let t := after (withV 1 0x81 (start 0x810E))
    readV t 1 = 0x02 ∧ readV t vF = 1 := by
  decide

/-- L2.3 #23, #24: the two values of VF_WRITE_ORDER, which no test of a whole step can see (log 3). -/
theorem test_write_orders :
    readV (writeResultFlag .flagLast vF (addWithCarry 0xFF 0x01).1 (addWithCarry 0xFF 0x01).2 State.reset) vF = 0x01 ∧
    readV (writeResultFlag .resultLast vF (addWithCarry 0xFF 0x01).1 (addWithCarry 0xFF 0x01).2 State.reset) vF = 0x00 ∧
    readV (writeResultFlag .flagLast vF (subNoBorrow 0x01 0x02).1 (subNoBorrow 0x01 0x02).2 State.reset) vF = 0x00 ∧
    readV (writeResultFlag .resultLast vF (subNoBorrow 0x01 0x02).1 (subNoBorrow 0x01 0x02).2 State.reset) vF = 0xFF := by
  decide

/-- L2.3 #28: the free byte under its mask. -/
theorem test_rnd : readV (after (start 0xC30F)) 3 = Config.randByte 0 &&& 0x0F ∧ (0xAB : Byte) &&& 0x0F = 0x0B :=
  ⟨rfl, by decide⟩

/-! ## Index register and memory (L2.4) -/

/-- L2.4 #1. -/
theorem test_ld_i : (after (start 0xA123)).i = 0x0123 := by decide

/-- L2.4 #5; and #4 on the flag, for both values of I_OVF_LIMIT. -/
theorem test_add_i : (after (withI 0xFFFF (withV 2 0x02 (start 0xF21E)))).i = 0x0001 ∧
    indexOverflow .memoryRange 0xFFFF 0x02 = 1 ∧ indexOverflow .wordRange 0xFFFF 0x02 = 1 ∧
    indexOverflow .memoryRange 0x0FFF 0x01 = 1 ∧ indexOverflow .wordRange 0x0FFF 0x01 = 0 := by
  decide

/-- L2.4 #8. -/
theorem test_ld_f : (after (withV 1 0xFF (start 0xF129))).i = 0x04FB := by decide

/-- L2.4 #9. -/
theorem test_ld_b :
    let t := after (withV 1 157 (withI 0x300 (start 0xF133)))
    Memory.read t.mem 0x300 = 1 ∧ Memory.read t.mem 0x301 = 5 ∧ Memory.read t.mem 0x302 = 7 ∧ t.i = 0x300 := by
  decide

/-- L2.4 #12. -/
theorem test_ld_b_outside :
    let t := after (withV 1 255 (withI 0x0FFE (start 0xF133)))
    t.fault = some ⟨.memoryOutOfRange, 0x1000⟩ ∧ Memory.read t.mem 0x0FFE = 0 ∧ Memory.read t.mem 0x0FFF = 0 := by
  decide

/-- L2.4 #13. -/
theorem test_dump :
    let t := after (withV 0 1 (withV 1 2 (withV 2 3 (withI 0x300 (start 0xF255)))))
    Memory.read t.mem 0x300 = 1 ∧ Memory.read t.mem 0x301 = 2 ∧ Memory.read t.mem 0x302 = 3 ∧ t.i = 0x303 := by
  decide

/-- L2.4 #15. -/
theorem test_dump_outside :
    let t := after (withV 0 9 (withV 1 8 (withI 0x0FFF (start 0xF155))))
    t.fault = some ⟨.memoryOutOfRange, 0x1000⟩ ∧ Memory.read t.mem 0x0FFF = 0 ∧ t.i = 0x0FFF := by
  decide

/-- L2.4 #17. -/
theorem test_load :
    let t := after (withI 0x300 (withMem 0x300 1 (withMem 0x301 5 (withMem 0x302 7 (start 0xF265)))))
    readV t 0 = 1 ∧ readV t 1 = 5 ∧ readV t 2 = 7 ∧ readV t 3 = 0 ∧ t.i = 0x303 := by
  decide

/-- L2.4 #20: glyph 0 of the default font. -/
theorem test_load_font :
    let t := after (start 0xF265)
    readV t 0 = 0xF0 ∧ readV t 1 = 0x90 ∧ readV t 2 = 0x90 := by
  decide

/-! ## Keypad and timers (L2.5) -/

/-- L2.5 #1, #2. -/
theorem test_skp : (after (withV 5 7 (withKey 7 (start 0xE59E)))).pc = 0x204 ∧
    (after (withV 5 7 (start 0xE59E))).pc = 0x202 := by
  decide

/-- L2.5 #4. -/
theorem test_skp_no_such_key : (after (withV 1 0x10 (start 0xE19E))).fault = some ⟨.keyIndexOutOfRange, 0x10⟩ := by decide

/-- L2.5 #3; key down: L1.2. -/
theorem test_sknp : (after (withV 5 7 (start 0xE5A1))).pc = 0x204 ∧
    (after (withV 5 7 (withKey 7 (start 0xE5A1)))).pc = 0x202 := by
  decide

/-- L2.5 #6. -/
theorem test_ld_v_dt :
    let t := after { start 0xF307 with dt := 5 }
    readV t 3 = 5 ∧ t.dt = 4 := by
  decide

/-- L2.5 #8. -/
theorem test_ld_key :
    let t := after (withKey 2 (withKey 9 (start 0xF10A)))
    readV t 1 = 9 ∧ t.pc = 0x202 := by
  decide

/-- L2.5 #7. -/
theorem test_ld_key_waits :
    let t := after { start 0xF10A with dt := 5 }
    t.pc = 0x200 ∧ readV t 1 = 0 ∧ t.dt = 4 := by
  decide

/-- L2.5 #10. -/
theorem test_ld_dt : (after (withV 0 3 (start 0xF015))).dt = 2 := by decide

/-- L2.5 #12. -/
theorem test_ld_st : (after (withV 0 0xFF (start 0xF018))).st = 0xFE := by decide

/-! ## Cycle and host (L2.6) -/

/-- L2.6 #4. -/
theorem test_unknown_opcode :
    let t := after { start 0xFFFF with dt := 5 }
    t.fault = some ⟨.unknownOpcode, 0xFFFF⟩ ∧ t.dt = 5 ∧ t.pc = 0x200 := by
  decide

/-- L2.6 #5. -/
theorem test_last_fetch :
    let t := after (startAt 0x0FFE 0x6001)
    readV t 0 = 1 ∧ t.pc = 0x1000 ∧ (after t).fault = some ⟨.fetchOutOfRange, 0x1000⟩ := by
  decide

/-- R90: no byte is placed, so the step from reset itself runs the zero word at 0x200 (L2.6 #2). -/
theorem test_step_from_reset : (after State.reset).fault = some ⟨.unknownOpcode, 0x0000⟩ := by decide

/-- R233 on two bytes. -/
theorem test_load_rom :
    let t := (hostLoadRom defaultFont 7 [0x60, 0x01] (after State.reset)).1
    Memory.read t.mem 0x200 = 0x60 ∧ Memory.read t.mem 0x201 = 0x01 ∧ t.fault = none ∧ (after t).pc = 0x202 := by
  decide

/-! ## Witnesses: for each statement with hypotheses, a state and operands that meet them, at the ends of their ranges -/

theorem witness_DecodeOfEncodeIsTheInstruction :
    (Instr.drw 15 15 15).wellFormed = true ∧ (Instr.drw 0 0 0).wellFormed = true := by decide

theorem witness_KnownOpcodeIsItsEncodingInExaminedBits :
    decode 0x0FEE = .ok .ret ∧ decode 0x5AB1 = .ok (.seVV 10 11) := by decide

/-- One opcode for each clause: known; matching no row; matching a row. -/
theorem witness_ExactlyOneRowMatchesAKnownOpcode :
    decode 0x800E = .ok (.shlV 0 0) ∧ (∀ r ∈ opcodeMap, r.matches 0x800F = false) ∧
    (∃ r ∈ opcodeMap, r.matches 0xFF65 = true) := by decide

/-- At the last pc of a valid fetch, an instruction without a fault and one with a fault. -/
theorem witness_StepRunsTheDecodedInstruction :
    let s := startAt 0x0FFE 0x6001
    let u := startAt 0x0FFE 0x00EE
    (s.fault = none ∧ s.pc.toNat ≤ 0x0FFE ∧
      decode (opcodeOfBytes (Memory.read s.mem s.pc.toNat) (Memory.read s.mem (s.pc.toNat + 1))) = .ok (.ldVB 0 1) ∧
      exec (.ldVB 0 1) s = .next (done (.ldVB 0 1) s) ∧ (done (.ldVB 0 1) s).fault = none) ∧
    (u.fault = none ∧ u.pc.toNat ≤ 0x0FFE ∧
      decode (opcodeOfBytes (Memory.read u.mem u.pc.toNat) (Memory.read u.mem (u.pc.toNat + 1))) = .ok .ret ∧
      exec .ret u = .next (done .ret u) ∧ (done .ret u).fault ≠ none) :=
  ⟨⟨rfl, by decide, by decide, rfl, rfl⟩, ⟨rfl, by decide, by decide, rfl, by decide⟩⟩

theorem witness_FetchIsBigEndianAndRangeChecked :
    { State.reset with pc := 0x0FFE }.pc.toNat ≤ 0x0FFE ∧ { State.reset with pc := 0x0FFF }.fault = none ∧
    0x0FFE < { State.reset with pc := 0x0FFF }.pc.toNat := by decide

theorem witness_UnknownOpcodeIsTakenAsAFault :
    State.reset.fault = none ∧ fetch State.reset = .ok 0x0000 ∧ decode 0x0000 = .error (.unknownOpcode 0x0000) := by decide

theorem witness_LatchedFaultStopsEveryLaterTick :
    (after (start 0xFFFF)).fault = some ⟨.unknownOpcode, 0xFFFF⟩ := by decide

/-- Faults of fetch, decode and execute. -/
theorem witness_FaultingTickChangesOnlyTheLatch :
    (start 0xFFFF).fault = none ∧ step (start 0xFFFF) = .next (after (start 0xFFFF)) ∧ (after (start 0xFFFF)).fault ≠ none ∧
    (after (start 0x00EE)).fault ≠ none ∧ (after { State.reset with pc := 0x0FFF }).fault ≠ none :=
  ⟨rfl, rfl, by decide, by decide, by decide⟩

theorem witness_SuccessfulTickStepsEachTimerOnce :
    (start 0xF107).fault = none ∧ fetchDecode (start 0xF107) = .ok (.ldVDT 1) ∧
    step (start 0xF107) = .next (after (start 0xF107)) ∧ (after (start 0xF107)).fault = none ∧
    (start 0xFFFF).fault = none ∧ step (start 0xFFFF) = .next (after (start 0xFFFF)) ∧ (after (start 0xFFFF)).fault ≠ none :=
  ⟨rfl, by decide, rfl, rfl, rfl, rfl, by decide⟩

/-- Instructions that can fault, in states where they do not, and one that cannot. -/
theorem witness_EveryInstructionFollowsItsPcRule :
    State.reset.fault = none ∧
    exec .ret (withStack 0x204 1 State.reset) = .next (done .ret (withStack 0x204 1 State.reset)) ∧
    (done .ret (withStack 0x204 1 State.reset)).fault = none ∧
    (done (.skp 1) (withV 1 15 State.reset)).fault = none ∧ (done (.ldVK 1) State.reset).fault = none ∧
    (done (.drw 0 0 15) (withI 0x0FF1 State.reset)).fault = none ∧ (done (.jp 0xFFF) State.reset).fault = none :=
  ⟨rfl, rfl, rfl, by decide, by decide, by decide, rfl⟩

/-- A state with a cell of memory, the largest pc, a full stack and a latched fault. -/
def bounded : State :=
  { withMem 0xFFF 1 State.reset with
    pc := 0x10FE, stack := Vector.replicate 16 0x0FFE, sp := 16, fault := some ⟨.fetchOutOfRange, 0x10FE⟩ }

theorem bounded_inv : Inv bounded where
  memory := by decide
  pc := by unfold PcInReach; decide
  stack := by unfold StackOfCalls; decide
  info := by
    intro f h
    obtain rfl := Option.some.inj h
    decide

theorem witness_EveryTickKeepsTheInvariant :
    Inv bounded ∧ step bounded = .next bounded ∧ Inv { bounded with fault := none } ∧
    step { bounded with fault := none } = .next bounded :=
  ⟨bounded_inv, rfl,
    { memory := bounded_inv.memory, pc := bounded_inv.pc, stack := bounded_inv.stack, info := fun _ h => by cases h }, rfl⟩

theorem witness_EveryHostOperationKeepsTheInvariant :
    Inv bounded ∧ hostStep defaultFont (.loadRom 0 [0x60]) bounded = .next (hostLoadRom defaultFont 0 [0x60] bounded).1 ∧
    hostStep defaultFont .clearDirty bounded = .next (hostClearDirty bounded) :=
  ⟨bounded_inv, rfl, rfl⟩

/-- Explained before, and a tick that takes a fault. -/
theorem witness_LatchedFaultStaysExplained :
    FaultExplained (start 0xFFFF) ∧ hostStep defaultFont .tick (start 0xFFFF) = .next (after (start 0xFFFF)) ∧
    (after (start 0xFFFF)).fault = some ⟨.unknownOpcode, 0xFFFF⟩ :=
  ⟨fun _ h => (by cases h), rfl, by decide⟩

theorem witness_MemoriesThatReadAlikeAreEqual :
    Memory.wf [(0x300, 1), (0xFFF, 2)] = true ∧
    ∀ a, Memory.read [(0x300, 1), (0xFFF, 2)] a = Memory.read [(0x300, 1), (0xFFF, 2)] a :=
  ⟨by decide, fun _ => rfl⟩

/-- A jump is none of the instructions that any clause leaves out. -/
theorem witness_EachStoreIsWrittenOnlyByItsInstructions :
    exec (.jp 0x234) { State.reset with dirty := true } = .next (done (.jp 0x234) { State.reset with dirty := true }) ∧
    Instr.jp 0x234 ≠ .ret ∧ (∀ nnn, Instr.jp 0x234 ≠ .call nnn) ∧ Instr.jp 0x234 ≠ .cls ∧
    (∀ x y n, Instr.jp 0x234 ≠ .drw x y n) ∧ (∀ x, Instr.jp 0x234 ≠ .ldBV x) ∧ (∀ x, Instr.jp 0x234 ≠ .ldMV x) ∧
    (∀ x, Instr.jp 0x234 ≠ .ldDTV x) ∧ (∀ x, Instr.jp 0x234 ≠ .ldSTV x) ∧ (∀ nnn, Instr.jp 0x234 ≠ .ldI nnn) ∧
    (∀ x, Instr.jp 0x234 ≠ .addIV x) ∧ (∀ x, Instr.jp 0x234 ≠ .ldFV x) ∧ (∀ x, Instr.jp 0x234 ≠ .ldVM x) ∧
    (∀ x nn, Instr.jp 0x234 ≠ .rnd x nn) :=
  ⟨rfl, by simp⟩

theorem witness_RegistersAreWrittenOnlyAsListed :
    exec (.ldVM 3) State.reset = .next (done (.ldVM 3) State.reset) ∧ ¬ MayWrite (.ldVM 3) 4 ∧ ¬ MayWrite (.addVV 3 4) 4 :=
  ⟨rfl, by unfold MayWrite; decide, by unfold MayWrite; decide⟩

theorem witness_NoInstructionReadsTheSoundTimer : exec (.ldSTV 1) State.reset = .next (done (.ldSTV 1) State.reset) := rfl

theorem witness_OnlyRndReadsTheRandomByte :
    (∀ x nn, Instr.orVV 1 2 ≠ .rnd x nn) ∧ exec (.orVV 1 2) State.reset = .next (done (.orVV 1 2) State.reset) :=
  ⟨by simp, rfl⟩

/-- Two states that do differ in a slot at sp, and a RET in both. -/
theorem witness_PoppedStackSlotsAreNeverSeen :
    let s := withStack 0x204 1 (start 0x00EE)
    let s' := { s with stack := s.stack.set 1 0x555 }
    SameButDeadSlots s s' ∧ s ≠ s' ∧ step s = .next (after s) ∧ (after s).fault = none := by
  refine ⟨⟨rfl, ?_⟩, by decide, rfl, by decide⟩
  intro k hk
  have : k = 0 := by
    have hk : k.val < 1 := hk
    exact Fin.ext (by omega)
  subst this
  decide

/-- Fifteen rows that end at 0x0FFF; fifteen rows of which the first outside memory is at 0x1000 (L2.1 #10), and one at
0xFFFF; a pixel of a sprite, on; and a sprite without one. -/
theorem witness_DrwXorsTheSpriteAndReportsCollision :
    InMemory 0x0FF1 15 ∧ LowestOutside 0x0FF5 15 0x1000 ∧ LowestOutside 0xFFFF 1 0xFFFF ∧ (15 < 16) ∧
    SpriteOn 1 2 1 (withPixel 5 0 (withI 0x300 (withMem 0x300 0x80 (withV 1 0x40 (withV 2 0x25 State.reset))))) 5 0 ∧
    pixel (withPixel 5 0 State.reset).fb 5 0 = true ∧
    ¬ ∃ r c, SpriteOn 1 2 0 State.reset r c ∧ pixel State.reset.fb r c = true := by
  refine ⟨fun k hk => by omega, ⟨11, by omega, rfl, by omega, fun j hj => by omega⟩,
    ⟨0, by omega, rfl, by omega, fun j hj => by omega⟩, by omega, ⟨0, 0, by omega, by omega, ?_, ?_, ?_⟩, by decide, ?_⟩
  · decide
  · decide
  · decide
  · rintro ⟨r, c, ⟨i, _, hi, _⟩, _⟩
    omega

theorem witness_DrawingTwiceRestoresTheScreen :
    let s := withI 0x300 (withMem 0x300 0x80 State.reset)
    let t := done (.drw 1 2 1) s
    let m := { t with v := s.v }
    (1 < 16) ∧ (1 : Reg) ≠ vF ∧ (2 : Reg) ≠ vF ∧ InMemory s.i.toNat 1 ∧ exec (.drw 1 2 1) s = .next t ∧ m.fb = t.fb ∧
    readV m 1 = readV s 1 ∧ readV m 2 = readV s 2 ∧ m.i = s.i ∧
    (∀ k, k < 1 → Memory.read m.mem (s.i.toNat + k) = Memory.read s.mem (s.i.toNat + k)) ∧
    exec (.drw 1 2 1) m = .next (done (.drw 1 2 1) m) ∧ pixel s.fb 0 0 = false ∧ pixel t.fb 0 0 = true :=
  ⟨by omega, by decide, by decide, fun k hk => (by have : (0x300 : Word).toNat = 0x300 := rfl; simp [withI]; omega),
    rfl, rfl, rfl, rfl, rfl, fun _ _ => rfl, rfl, by decide, by decide⟩

/-- Both clauses, with one entry and with sixteen. -/
theorem witness_RetResumesAfterTheCall :
    State.reset.sp = 0 ∧ (withStack 0x204 1 State.reset).sp.val = (0 : Fin 16).val + 1 ∧
    (withStack 0x204 16 State.reset).sp.val = (15 : Fin 16).val + 1 := by decide

theorem witness_CallPushesItsOwnAddress :
    (withStack 0x204 16 State.reset).sp = 16 ∧ State.reset.sp.val = (0 : Fin 16).val ∧
    (withStack 0x204 15 State.reset).sp.val = (15 : Fin 16).val := by decide

theorem witness_RetUndoesCall :
    let s := withStack 0x204 15 State.reset
    let t := done (.call 0x300) s
    s.sp.val < 16 ∧ exec (.call 0x300) s = .next t ∧ { t with pc := 0x456 }.stack = t.stack ∧
    { t with pc := 0x456 }.sp = t.sp :=
  ⟨by decide, rfl, rfl, rfl⟩

theorem witness_ImmediateSkipsCompareVxWithNn :
    readV (withV 3 0x12 State.reset) 3 = 0x12 ∧ readV (withV 3 0x13 State.reset) 3 ≠ 0x12 := by decide

theorem witness_RegisterSkipsCompareVxWithVy :
    readV (withV 3 0x12 State.reset) 3 = readV (withV 3 0x12 State.reset) 3 ∧
    readV (withV 3 0x12 State.reset) 3 ≠ readV (withV 3 0x12 State.reset) 4 := by decide

theorem witness_JumpToItselfChangesOnlyTheTimers :
    (start 0x1200).fault = none ∧ fetchDecode (start 0x1200) = .ok (.jp 0x200) ∧
    (0x200 : BitVec 12).toNat = (start 0x1200).pc.toNat := by decide

/-- The order does not matter for x = E; and this machine has one of the two orders. -/
theorem witness_FlagAndResultAreWrittenInOrder :
    (14 : Reg) ≠ vF ∧ (Config.vfWriteOrder = .flagLast ∨ Config.vfWriteOrder = .resultLast) := by
  refine ⟨by decide, ?_⟩
  cases Config.vfWriteOrder
  · exact .inl rfl
  · exact .inr rfl

theorem witness_RndMasksTheFreeByte : (0 : Byte) = 0 ∧ (0xFF : Byte) = 0xFF := ⟨rfl, rfl⟩

/-- This machine has one of the two limits. -/
theorem witness_AddToIndexSetsOverflow : Config.iOvfLimit = .memoryRange ∨ Config.iOvfLimit = .wordRange := by
  cases Config.iOvfLimit
  · exact .inl rfl
  · exact .inr rfl

theorem witness_BcdStoresThreeDigits :
    InMemory (withI 0x0FFD State.reset).i.toNat 3 ∧ LowestOutside (withI 0x0FFE State.reset).i.toNat 3 0x1000 := by
  have h1 : (withI 0x0FFD State.reset).i.toNat = 0x0FFD := rfl
  have h2 : (withI 0x0FFE State.reset).i.toNat = 0x0FFE := rfl
  rw [h1, h2]
  exact ⟨fun k hk => by omega, ⟨2, by omega, rfl, by omega, fun j hj => by omega⟩⟩

/-- One register and sixteen, each ending at 0x0FFF; and one byte too far. -/
theorem witness_RegisterDumpStoresV0ToVx :
    InMemory (withI 0x0FFF State.reset).i.toNat ((0 : Reg).val + 1) ∧
    InMemory (withI 0x0FF0 State.reset).i.toNat ((15 : Reg).val + 1) ∧
    LowestOutside (withI 0x0FFF State.reset).i.toNat ((1 : Reg).val + 1) 0x1000 ∧ (15 : Reg).val ≤ (15 : Reg).val := by
  have h1 : (withI 0x0FFF State.reset).i.toNat = 0x0FFF := rfl
  have h2 : (withI 0x0FF0 State.reset).i.toNat = 0x0FF0 := rfl
  have h3 : (15 : Reg).val = 15 := rfl
  rw [h1, h2, h3]
  exact ⟨fun k hk => (by simp at hk; omega), fun k hk => by omega,
    ⟨1, by decide, rfl, by omega, fun j hj => by omega⟩, le_rfl⟩

/-- The same bounds; and an I above memory. -/
theorem witness_RegisterLoadReadsV0ToVx :
    InMemory (withI 0x0FFF State.reset).i.toNat ((0 : Reg).val + 1) ∧
    InMemory (withI 0x0FF0 State.reset).i.toNat ((15 : Reg).val + 1) ∧
    LowestOutside (withI 0x1000 State.reset).i.toNat ((0 : Reg).val + 1) 0x1000 := by
  have h1 : (withI 0x1000 State.reset).i.toNat = 0x1000 := rfl
  rw [h1]
  exact ⟨witness_RegisterDumpStoresV0ToVx.1, witness_RegisterDumpStoresV0ToVx.2.1,
    ⟨0, by decide, rfl, by omega, fun j hj => by omega⟩⟩

/-- Registers dumped, cleared, and I set back. -/
theorem witness_RegisterLoadReadsV0ToVx_law :
    let s := withI 0x0FF0 (withV 15 0xEE State.reset)
    let t := done (.ldMV 15) s
    let m := { t with v := State.reset.v, i := 0x0FF0 }
    InMemory s.i.toNat ((15 : Reg).val + 1) ∧ exec (.ldMV 15) s = .next t ∧ t.fault = none ∧ MemKept t m ∧ m.i = s.i :=
  ⟨witness_RegisterDumpStoresV0ToVx.2.1, rfl, by decide, fun _ => rfl, rfl⟩

/-- FX55 and FX33 whose last byte is at 0x0FFF, fetched as the low byte at the last address of a fetch, and the byte before
it as the high byte. -/
theorem witness_StoredBytesAreFetched :
    let s := withI 0x0FF0 (withV 15 0xEE State.reset)
    let t := done (.ldMV 15) s
    let m := { t with pc := 0x0FFE }
    let s' := withI 0x0FFD (withV 15 0xEE State.reset)
    let t' := done (.ldBV 15) s'
    let m' := { t' with pc := 0x0FFE }
    (InMemory s.i.toNat ((15 : Reg).val + 1) ∧ exec (.ldMV 15) s = .next t ∧ MemKept t m ∧
      m.pc.toNat = s.i.toNat + (14 : Reg).val ∧ m.pc.toNat + 1 = s.i.toNat + (15 : Reg).val ∧ m.pc.toNat ≤ 0x0FFE) ∧
    (InMemory s'.i.toNat 3 ∧ exec (.ldBV 15) s' = .next t' ∧ MemKept t' m' ∧
      m'.pc.toNat = s'.i.toNat + 1 ∧ m'.pc.toNat + 1 = s'.i.toNat + 2) :=
  ⟨⟨witness_RegisterDumpStoresV0ToVx.2.1, rfl, fun _ => rfl, rfl, rfl, by decide⟩,
    ⟨witness_BcdStoresThreeDigits.1, rfl, fun _ => rfl, rfl, rfl⟩⟩

/-- The last key, down and up, and the first number that names no key. -/
theorem witness_KeySkipsTestTheKeyNamedByVx :
    (readV (withV 5 15 State.reset) 5).toNat = (15 : Fin 16).val ∧ (withKey 15 State.reset).keypad[15] = true ∧
    State.reset.keypad[15] = false ∧ 0x0F < (readV (withV 5 16 State.reset) 5).toNat := by decide

/-- No key; the highest key; and the lowest one alone. -/
theorem witness_KeyWaitTakesTheHighestKey :
    (∀ k : Fin 16, State.reset.keypad[k] = false) ∧
    (withKey 0 (withKey 15 State.reset)).keypad[(15 : Fin 16)] = true ∧
    (∀ j : Fin 16, 15 < j → (withKey 0 (withKey 15 State.reset)).keypad[j] = false) ∧
    (withKey 0 State.reset).keypad[(0 : Fin 16)] = true ∧
    (∀ j : Fin 16, 0 < j → (withKey 0 State.reset).keypad[j] = false) := by decide

theorem witness_KeyWaitHoldsPcWhileNoKeyIsPressed :
    (start 0xF10A).fault = none ∧ fetchDecode (start 0xF10A) = .ok (.ldVK 1) ∧
    (∀ k : Fin 16, (start 0xF10A).keypad[k] = false) := by decide

/-- FX15, and FY07 after it. -/
theorem witness_DelaySetThenReadIsOneLess :
    let s := withMem 0x202 0xF2 (withMem 0x203 0x07 (start 0xF115))
    s.fault = none ∧ fetchDecode s = .ok (.ldDTV 1) ∧ fetchDecode (after s) = .ok (.ldVDT 2) := by decide

/-- A FONT that is not the default. -/
def otherFont : Config.Font := Vector.replicate 80 0x55

/-- init with another FONT lists what differs from the default, in canonical form (R38). -/
theorem test_init_with_another_font :
    let t := hostInit otherFont 7 bounded
    Memory.read t.mem 0 = 0x55 ∧ Memory.read t.mem 79 = 0x55 ∧ Memory.read t.mem 80 = 0 ∧ Memory.read t.mem 0xFFF = 0 := by
  decide

/-- Both ends of the two ranges of addresses. -/
theorem witness_InitGivesTheResetValues :
    hostInit otherFont 7 bounded = hostInit otherFont 7 bounded ∧ (79 < 80) ∧ (80 ≤ 80) := ⟨rfl, by omega, by omega⟩

/-- The last byte of the last glyph. -/
theorem witness_LdFPointsAtTheGlyphOfFont :
    let m := withV 1 15 (hostInit otherFont 7 bounded)
    MemKept (hostInit otherFont 7 bounded) m ∧ (readV m 1).toNat = (15 : Fin 16).val ∧
    exec (.ldFV 1) m = .next (done (.ldFV 1) m) ∧ 5 * (15 : Fin 16).val + (4 : Fin 5).val = 79 :=
  ⟨fun _ => rfl, by decide, rfl, by decide⟩

/-- L2.6 #8, #9: one byte too many, and the most there may be. -/
theorem witness_LoadRomPlacesTheBytesAt0x200 :
    (List.replicate 3585 (0xFF : Byte)).length > 3584 ∧ (List.replicate 3584 (0xFF : Byte)).length ≤ 3584 ∧
    3583 < (List.replicate 3584 (0xFF : Byte)).length := by
  simp only [List.length_replicate]
  omega

theorem witness_HostWritesOnlyKeypadAndDirty : (14 : Reg) ≠ 15 := by decide

theorem witness_PlacedWordIsTheNextInstruction :
    0xFF65 < 65536 ∧ decodeTableWord 16 0xFF65 = some (.ldVM 15) := by decide

end Sys2Proof.Tests
end

section
/-! PROOFS. The rules of 10_state.md: CALL and RET on the stack (R29), and the reset values (R38, R231). -/

namespace Sys2Proof.Machine

/-! ### CALL and RET where the stack lets them through -/

/-- CALL with a free slot (R27, R122): its own address goes to slot sp, and control to nnn. -/
theorem exec_call_of_lt (nnn : BitVec 12) (s : State) (h : s.sp.val < 16) :
    exec (.call nnn) s = .next (jumpTo (address nnn)
      { s with stack := s.stack.set s.sp.val s.pc, sp := ⟨s.sp.val + 1, by omega⟩ }) := by
  show complete s (callTo nnn s) = _
  unfold callTo
  obtain ⟨_, hp⟩ | ⟨h16, _⟩ := push_cases s.pc s
  · rw [hp, complete_ok]
  · exact absurd h (by simp [h16])

/-- RET with an entry held (R28, R120): control goes to the top slot's value plus 2, and sp drops the entry. -/
theorem exec_ret_of_ne_zero (s : State) (h : s.sp.val ≠ 0) :
    exec .ret s = .next (jumpTo (s.stack[s.sp.val - 1] + 2) { s with sp := ⟨s.sp.val - 1, by omega⟩ }) := by
  show complete s (returnFrom s) = _
  unfold returnFrom
  obtain ⟨_, hp⟩ | ⟨h0, _⟩ := pop_cases s
  · rw [hp, complete_ok]
  · exact absurd (congrArg Fin.val h0) h

/-- Settles O29: the slot RET reads is the one CALL wrote. -/
theorem retUndoesCall : Obligations.RetUndoesCall := by
  intro nnn s t m hsp hcall hstack hm
  rw [exec_call_of_lt nnn s hsp] at hcall
  obtain rfl := Host.Outcome.next.inj hcall
  have hmsp : m.sp.val = s.sp.val + 1 := congrArg Fin.val hm
  refine ⟨fun k hk => ?_, _, exec_ret_of_ne_zero m (by omega), ?_, ?_⟩
  · simp [← hk]
  · simp [hstack, hmsp]
  · exact Fin.ext (by simp [hmsp])

/-! ### The state after init -/

/-- Settles O52: memory by the rule for reading any address after init, every other element field by field. -/
theorem initGivesTheResetValues : Obligations.InitGivesTheResetValues := by
  rintro font seed s _ rfl
  refine ⟨fun a => ?_, fun a ha => ?_, fun r => ?_, fun k => ?_, hostInit_sp .., hostInit_pc .., hostInit_i ..,
    hostInit_dt .., hostInit_st .., fun r c => ?_, fun k => ?_, hostInit_dirty .., hostInit_fault ..⟩
  · rw [read_hostInit, dif_pos a.isLt, Fin.getElem_fin]
  · rw [read_hostInit, dif_neg (by omega)]
  · simp [readV, State.reset]
  · simp [State.reset]
  · rw [hostInit_fb]
    exact pixel_blankScreen r c
  · simp [State.reset]

end Sys2Proof.Machine
end

section
/-! PROOFS. The rows of the opcode map (30_encoding.md R77): every row decodes to its own instruction, and the decoder
answers an instruction only for an opcode that matches that instruction's row. -/

namespace Sys2Proof

open Sys2Proof.Machine

/-! ### To match a row is to have the fields it fixes -/

theorem and_F000_eq_iff (op p : Word) : op &&& 0xF000 = p &&& 0xF000 ↔ opClass op = opClass p := by
  constructor
  · intro h
    rw [← opClass_and_F000 op, h, opClass_and_F000]
  · intro h
    rw [eq_packNNN op, eq_packNNN p, packNNN_and_class, packNNN_and_class, h]

theorem and_F00F_eq_iff (op p : Word) : op &&& 0xF00F = p &&& 0xF00F ↔ opClass op = opClass p ∧ opN op = opN p := by
  constructor
  · intro h
    rw [← opClass_and_F00F op, ← opN_and_F00F op, h, opClass_and_F00F, opN_and_F00F]
    exact ⟨rfl, rfl⟩
  · rintro ⟨hc, hn⟩
    rw [eq_packXYN op, eq_packXYN p, packXYN_and_selector, packXYN_and_selector, hc, hn]

theorem and_F0FF_eq_iff (op p : Word) : op &&& 0xF0FF = p &&& 0xF0FF ↔ opClass op = opClass p ∧ opNN op = opNN p := by
  constructor
  · intro h
    rw [← opClass_and_F0FF op, ← opNN_and_F0FF op, h, opClass_and_F0FF, opNN_and_F0FF]
    exact ⟨rfl, rfl⟩
  · rintro ⟨hc, hn⟩
    rw [eq_packXNN op, eq_packXNN p, packXNN_and_selector, packXNN_and_selector, hc, hn]

theorem OpcodeRow.matches_iff (r : OpcodeRow) (op : Word) : r.matches op = true ↔ op &&& r.mask = r.pat :=
  decide_eq_true_iff

/-! ### The second-level dispatch of R74 -/

theorem decode_of_class0 {op : Word} (hc : opClass op = 0x0) : decode op = decodeClass0 op := by rw [decode, hc]; rfl
theorem decode_of_class8 {op : Word} (hc : opClass op = 0x8) : decode op = decodeClass8 op := by rw [decode, hc]; rfl
theorem decode_of_classE {op : Word} (hc : opClass op = 0xE) : decode op = decodeClassE op := by rw [decode, hc]; rfl
theorem decode_of_classF {op : Word} (hc : opClass op = 0xF) : decode op = decodeClassF op := by rw [decode, hc]; rfl

section
variable {p : Word} {f : Word → Instr}

theorem encodes_of_class (hp : p &&& 0xF000 = p) (hd : ∀ op, opClass op = opClass p → decode op = .ok (f op)) :
    Encodes p 0xF000 f :=
  fun op h => hd op ((and_F000_eq_iff op p).1 (h.trans hp.symm))

theorem encodes_of_class_n (hp : p &&& 0xF00F = p)
    (hd : ∀ op, opClass op = opClass p → opN op = opN p → decode op = .ok (f op)) : Encodes p 0xF00F f := fun op h =>
  have ⟨hc, hn⟩ := (and_F00F_eq_iff op p).1 (h.trans hp.symm)
  hd op hc hn

theorem encodes_of_class_nn (hp : p &&& 0xF0FF = p)
    (hd : ∀ op, opClass op = opClass p → opNN op = opNN p → decode op = .ok (f op)) : Encodes p 0xF0FF f := fun op h =>
  have ⟨hc, hn⟩ := (and_F0FF_eq_iff op p).1 (h.trans hp.symm)
  hd op hc hn

end

/-! ### Each row of the map decodes to its instruction -/

theorem encodes_cls : Encodes 0x00E0 0xF0FF (fun _ => .cls) :=
  encodes_of_class_nn rfl fun _ hc hn => by rw [decode_of_class0 hc, decodeClass0, hn]; rfl
theorem encodes_ret : Encodes 0x00EE 0xF0FF (fun _ => .ret) :=
  encodes_of_class_nn rfl fun _ hc hn => by rw [decode_of_class0 hc, decodeClass0, hn]; rfl
theorem encodes_jp : Encodes 0x1000 0xF000 (fun op => .jp (opNNN op)) :=
  encodes_of_class rfl fun _ hc => by rw [decode, hc]; rfl
theorem encodes_call : Encodes 0x2000 0xF000 (fun op => .call (opNNN op)) :=
  encodes_of_class rfl fun _ hc => by rw [decode, hc]; rfl
theorem encodes_seVB : Encodes 0x3000 0xF000 (fun op => .seVB (opX op) (opNN op)) :=
  encodes_of_class rfl fun _ hc => by rw [decode, hc]; rfl
theorem encodes_sneVB : Encodes 0x4000 0xF000 (fun op => .sneVB (opX op) (opNN op)) :=
  encodes_of_class rfl fun _ hc => by rw [decode, hc]; rfl
theorem encodes_seVV : Encodes 0x5000 0xF000 (fun op => .seVV (opX op) (opY op)) :=
  encodes_of_class rfl fun _ hc => by rw [decode, hc]; rfl
theorem encodes_ldVB : Encodes 0x6000 0xF000 (fun op => .ldVB (opX op) (opNN op)) :=
  encodes_of_class rfl fun _ hc => by rw [decode, hc]; rfl
theorem encodes_addVB : Encodes 0x7000 0xF000 (fun op => .addVB (opX op) (opNN op)) :=
  encodes_of_class rfl fun _ hc => by rw [decode, hc]; rfl
theorem encodes_ldVV : Encodes 0x8000 0xF00F (fun op => .ldVV (opX op) (opY op)) :=
  encodes_of_class_n rfl fun _ hc hn => by rw [decode_of_class8 hc, decodeClass8, hn]; rfl
theorem encodes_orVV : Encodes 0x8001 0xF00F (fun op => .orVV (opX op) (opY op)) :=
  encodes_of_class_n rfl fun _ hc hn => by rw [decode_of_class8 hc, decodeClass8, hn]; rfl
theorem encodes_andVV : Encodes 0x8002 0xF00F (fun op => .andVV (opX op) (opY op)) :=
  encodes_of_class_n rfl fun _ hc hn => by rw [decode_of_class8 hc, decodeClass8, hn]; rfl
theorem encodes_xorVV : Encodes 0x8003 0xF00F (fun op => .xorVV (opX op) (opY op)) :=
  encodes_of_class_n rfl fun _ hc hn => by rw [decode_of_class8 hc, decodeClass8, hn]; rfl
theorem encodes_addVV : Encodes 0x8004 0xF00F (fun op => .addVV (opX op) (opY op)) :=
  encodes_of_class_n rfl fun _ hc hn => by rw [decode_of_class8 hc, decodeClass8, hn]; rfl
theorem encodes_subVV : Encodes 0x8005 0xF00F (fun op => .subVV (opX op) (opY op)) :=
  encodes_of_class_n rfl fun _ hc hn => by rw [decode_of_class8 hc, decodeClass8, hn]; rfl
theorem encodes_shrV : Encodes 0x8006 0xF00F (fun op => .shrV (opX op) (opY op)) :=
  encodes_of_class_n rfl fun _ hc hn => by rw [decode_of_class8 hc, decodeClass8, hn]; rfl
theorem encodes_subnVV : Encodes 0x8007 0xF00F (fun op => .subnVV (opX op) (opY op)) :=
  encodes_of_class_n rfl fun _ hc hn => by rw [decode_of_class8 hc, decodeClass8, hn]; rfl
theorem encodes_shlV : Encodes 0x800E 0xF00F (fun op => .shlV (opX op) (opY op)) :=
  encodes_of_class_n rfl fun _ hc hn => by rw [decode_of_class8 hc, decodeClass8, hn]; rfl
theorem encodes_sneVV : Encodes 0x9000 0xF000 (fun op => .sneVV (opX op) (opY op)) :=
  encodes_of_class rfl fun _ hc => by rw [decode, hc]; rfl
theorem encodes_ldI : Encodes 0xA000 0xF000 (fun op => .ldI (opNNN op)) :=
  encodes_of_class rfl fun _ hc => by rw [decode, hc]; rfl
theorem encodes_jpV0 : Encodes 0xB000 0xF000 (fun op => .jpV0 (opNNN op)) :=
  encodes_of_class rfl fun _ hc => by rw [decode, hc]; rfl
theorem encodes_rnd : Encodes 0xC000 0xF000 (fun op => .rnd (opX op) (opNN op)) :=
  encodes_of_class rfl fun _ hc => by rw [decode, hc]; rfl
theorem encodes_drw : Encodes 0xD000 0xF000 (fun op => .drw (opX op) (opY op) (opN op).toNat) :=
  encodes_of_class rfl fun _ hc => by rw [decode, hc]; rfl
theorem encodes_skp : Encodes 0xE09E 0xF0FF (fun op => .skp (opX op)) :=
  encodes_of_class_nn rfl fun _ hc hn => by rw [decode_of_classE hc, decodeClassE, hn]; rfl
theorem encodes_sknp : Encodes 0xE0A1 0xF0FF (fun op => .sknp (opX op)) :=
  encodes_of_class_nn rfl fun _ hc hn => by rw [decode_of_classE hc, decodeClassE, hn]; rfl
theorem encodes_ldVDT : Encodes 0xF007 0xF0FF (fun op => .ldVDT (opX op)) :=
  encodes_of_class_nn rfl fun _ hc hn => by rw [decode_of_classF hc, decodeClassF, hn]; rfl
theorem encodes_ldVK : Encodes 0xF00A 0xF0FF (fun op => .ldVK (opX op)) :=
  encodes_of_class_nn rfl fun _ hc hn => by rw [decode_of_classF hc, decodeClassF, hn]; rfl
theorem encodes_ldDTV : Encodes 0xF015 0xF0FF (fun op => .ldDTV (opX op)) :=
  encodes_of_class_nn rfl fun _ hc hn => by rw [decode_of_classF hc, decodeClassF, hn]; rfl
theorem encodes_ldSTV : Encodes 0xF018 0xF0FF (fun op => .ldSTV (opX op)) :=
  encodes_of_class_nn rfl fun _ hc hn => by rw [decode_of_classF hc, decodeClassF, hn]; rfl
theorem encodes_addIV : Encodes 0xF01E 0xF0FF (fun op => .addIV (opX op)) :=
  encodes_of_class_nn rfl fun _ hc hn => by rw [decode_of_classF hc, decodeClassF, hn]; rfl
theorem encodes_ldFV : Encodes 0xF029 0xF0FF (fun op => .ldFV (opX op)) :=
  encodes_of_class_nn rfl fun _ hc hn => by rw [decode_of_classF hc, decodeClassF, hn]; rfl
theorem encodes_ldBV : Encodes 0xF033 0xF0FF (fun op => .ldBV (opX op)) :=
  encodes_of_class_nn rfl fun _ hc hn => by rw [decode_of_classF hc, decodeClassF, hn]; rfl
theorem encodes_ldMV : Encodes 0xF055 0xF0FF (fun op => .ldMV (opX op)) :=
  encodes_of_class_nn rfl fun _ hc hn => by rw [decode_of_classF hc, decodeClassF, hn]; rfl
theorem encodes_ldVM : Encodes 0xF065 0xF0FF (fun op => .ldVM (opX op)) :=
  encodes_of_class_nn rfl fun _ hc hn => by rw [decode_of_classF hc, decodeClassF, hn]; rfl

/-- The row by row list above covers the map, and each row is the row of the instruction it decodes to. -/
theorem exists_encodes_of_mem : ∀ r ∈ opcodeMap, ∃ f, Encodes r.pat r.mask f ∧ ∀ op, rowOf (f op) = r := by
  simp only [opcodeMap, List.cons_append, List.nil_append, List.forall_mem_cons]
  exact ⟨⟨_, encodes_cls, fun _ => rfl⟩, ⟨_, encodes_ret, fun _ => rfl⟩, ⟨_, encodes_jp, fun _ => rfl⟩,
    ⟨_, encodes_call, fun _ => rfl⟩, ⟨_, encodes_seVB, fun _ => rfl⟩, ⟨_, encodes_sneVB, fun _ => rfl⟩,
    ⟨_, encodes_seVV, fun _ => rfl⟩, ⟨_, encodes_ldVB, fun _ => rfl⟩, ⟨_, encodes_addVB, fun _ => rfl⟩,
    ⟨_, encodes_ldVV, fun _ => rfl⟩, ⟨_, encodes_orVV, fun _ => rfl⟩, ⟨_, encodes_andVV, fun _ => rfl⟩,
    ⟨_, encodes_xorVV, fun _ => rfl⟩, ⟨_, encodes_addVV, fun _ => rfl⟩, ⟨_, encodes_subVV, fun _ => rfl⟩,
    ⟨_, encodes_shrV, fun _ => rfl⟩, ⟨_, encodes_subnVV, fun _ => rfl⟩, ⟨_, encodes_shlV, fun _ => rfl⟩,
    ⟨_, encodes_sneVV, fun _ => rfl⟩, ⟨_, encodes_ldI, fun _ => rfl⟩, ⟨_, encodes_jpV0, fun _ => rfl⟩,
    ⟨_, encodes_rnd, fun _ => rfl⟩, ⟨_, encodes_drw, fun _ => rfl⟩, ⟨_, encodes_skp, fun _ => rfl⟩,
    ⟨_, encodes_sknp, fun _ => rfl⟩, ⟨_, encodes_ldVDT, fun _ => rfl⟩, ⟨_, encodes_ldVK, fun _ => rfl⟩,
    ⟨_, encodes_ldDTV, fun _ => rfl⟩, ⟨_, encodes_ldSTV, fun _ => rfl⟩, ⟨_, encodes_addIV, fun _ => rfl⟩,
    ⟨_, encodes_ldFV, fun _ => rfl⟩, ⟨_, encodes_ldBV, fun _ => rfl⟩, ⟨_, encodes_ldMV, fun _ => rfl⟩,
    ⟨_, encodes_ldVM, fun _ => rfl⟩, fun _ h => absurd h List.not_mem_nil⟩

theorem decode_of_matches {r : OpcodeRow} {op : Word} (hr : r ∈ opcodeMap) (h : r.matches op = true) :
    ∃ i, decode op = .ok i ∧ rowOf i = r := by
  obtain ⟨f, hf, hrow⟩ := exists_encodes_of_mem r hr
  exact ⟨f op, hf op ((OpcodeRow.matches_iff r op).1 h), hrow op⟩

/-! ### An opcode that decodes matches its instruction's row -/

/-- The answer `d` to `op` is an instruction whose row matches `op`, or that `op` is unknown (R77, R81). -/
def AnswersByRow (op : Word) (d : Except DecodeError Instr) : Prop :=
  (∃ i, d = .ok i ∧ (rowOf i).matches op = true) ∨ d = .error (.unknownOpcode op)

section
variable {op p : Word} {i : Instr}

/-- First-level dispatch (R73): the row fixes the class. -/
theorem answersByRow_of_class (hrow : rowOf i = ⟨p, 0xF000⟩) (hp : p &&& 0xF000 = p)
    (hc : (opClass op).toNat = (opClass p).toNat) : AnswersByRow op (.ok i) := by
  refine .inl ⟨i, rfl, (OpcodeRow.matches_iff _ _).2 ?_⟩
  rw [hrow]
  exact ((and_F000_eq_iff op p).2 (BitVec.eq_of_toNat_eq hc)).trans hp

/-- Dispatch on n (R74): the row fixes the class and n. -/
theorem answersByRow_of_class_n (hrow : rowOf i = ⟨p, 0xF00F⟩) (hp : p &&& 0xF00F = p)
    (hc : (opClass op).toNat = (opClass p).toNat) (hn : (opN op).toNat = (opN p).toNat) : AnswersByRow op (.ok i) := by
  refine .inl ⟨i, rfl, (OpcodeRow.matches_iff _ _).2 ?_⟩
  rw [hrow]
  exact ((and_F00F_eq_iff op p).2 ⟨BitVec.eq_of_toNat_eq hc, BitVec.eq_of_toNat_eq hn⟩).trans hp

/-- Dispatch on nn (R74): the row fixes the class and nn. -/
theorem answersByRow_of_class_nn (hrow : rowOf i = ⟨p, 0xF0FF⟩) (hp : p &&& 0xF0FF = p)
    (hc : (opClass op).toNat = (opClass p).toNat) (hn : (opNN op).toNat = (opNN p).toNat) :
    AnswersByRow op (.ok i) := by
  refine .inl ⟨i, rfl, (OpcodeRow.matches_iff _ _).2 ?_⟩
  rw [hrow]
  exact ((and_F0FF_eq_iff op p).2 ⟨BitVec.eq_of_toNat_eq hc, BitVec.eq_of_toNat_eq hn⟩).trans hp

end

theorem decodeClass0_answersByRow {op : Word} (hc : (opClass op).toNat = 0x0) :
    AnswersByRow op (decodeClass0 op) := by
  unfold decodeClass0
  split
  iterate 2 next hn => exact answersByRow_of_class_nn rfl rfl hc hn
  exact .inr rfl

theorem decodeClass8_answersByRow {op : Word} (hc : (opClass op).toNat = 0x8) :
    AnswersByRow op (decodeClass8 op) := by
  unfold decodeClass8
  split
  iterate 9 next hn => exact answersByRow_of_class_n rfl rfl hc hn
  exact .inr rfl

theorem decodeClassE_answersByRow {op : Word} (hc : (opClass op).toNat = 0xE) :
    AnswersByRow op (decodeClassE op) := by
  unfold decodeClassE
  split
  iterate 2 next hn => exact answersByRow_of_class_nn rfl rfl hc hn
  exact .inr rfl

theorem decodeClassF_answersByRow {op : Word} (hc : (opClass op).toNat = 0xF) :
    AnswersByRow op (decodeClassF op) := by
  unfold decodeClassF
  split
  iterate 9 next hn => exact answersByRow_of_class_nn rfl rfl hc hn
  exact .inr rfl

theorem decode_answersByRow (op : Word) : AnswersByRow op (decode op) := by
  unfold decode
  split
  next hc => exact decodeClass0_answersByRow hc
  iterate 7 next hc => exact answersByRow_of_class rfl rfl hc
  next hc => exact decodeClass8_answersByRow hc
  iterate 5 next hc => exact answersByRow_of_class rfl rfl hc
  next hc => exact decodeClassE_answersByRow hc
  next hc => exact decodeClassF_answersByRow hc
  exact .inr rfl

theorem rowOf_matches_of_decode {op : Word} {i : Instr} (h : decode op = .ok i) : (rowOf i).matches op = true := by
  obtain ⟨j, hj, hm⟩ | he := decode_answersByRow op
  · obtain rfl := Except.ok.inj (h.symm.trans hj)
    exact hm
  · simp [h] at he

theorem rowOf_mem_opcodeMap (i : Instr) : rowOf i ∈ opcodeMap := by
  cases i <;> simp [rowOf, opcodeMap]

/-- Settles O3: two rows that match one opcode are both the row of the one instruction it decodes to. -/
theorem exactlyOneRowMatchesAKnownOpcode : Obligations.ExactlyOneRowMatchesAKnownOpcode := by
  refine ⟨rfl, fun op => ⟨fun i hi => ⟨rowOf_mem_opcodeMap i, fun r hr => ⟨fun hm => ?_, ?_⟩⟩, fun hnone => ?_, ?_⟩⟩
  · obtain ⟨j, hj, hrow⟩ := decode_of_matches hr hm
    obtain rfl := Except.ok.inj (hi.symm.trans hj)
    exact hrow.symm
  · rintro rfl
    exact rowOf_matches_of_decode hi
  · obtain ⟨i, -, hm⟩ | he := decode_answersByRow op
    · simp [hnone _ (rowOf_mem_opcodeMap i)] at hm
    · exact he
  · rintro ⟨r, hr, hm⟩
    obtain ⟨i, hi, -⟩ := decode_of_matches hr hm
    exact ⟨i, hi⟩

end Sys2Proof
end

section
/-! PROOFS. What an instruction leaves when it takes no fault: one rule for each way an instruction can end, and from them
the timers (40_cycle.md R98) and the pc (R95) after every instruction. -/

namespace Sys2Proof.Machine

/-! ### The state an instruction leaves when it takes no fault -/

/-- `P` holds of the state the outcome gives, unless a fault is latched there. -/
def OnSuccess (P : State → Prop) (o : Host.Outcome State Fault Refusal) : Prop :=
  ∀ t, o = .next t → t.fault = none → P t

section
variable {P : State → Prop} {s : State}

theorem onSuccess_next {t : State} (h : P t) : OnSuccess P (.next t) := by
  intro u hu _
  obtain rfl := Host.Outcome.next.inj hu
  exact h

theorem onSuccess_complete {r : Except FaultRecord State} (h : ∀ t, r = .ok t → P t) : OnSuccess P (complete s r) := by
  obtain ⟨t, hr, hc⟩ | ⟨f, -, hc⟩ := complete_cases s r <;> rw [hc]
  · exact onSuccess_next (h t hr)
  · intro t ht hf
    obtain rfl := Host.Outcome.next.inj ht
    cases hf

theorem onSuccess_ret
    (h : s.sp.val ≠ 0 → P (jumpTo (s.stack[s.sp.val - 1] + 2) { s with sp := ⟨s.sp.val - 1, by omega⟩ })) :
    OnSuccess P (exec .ret s) := by
  obtain ⟨h0, -⟩ | ⟨-, hp⟩ := pop_cases s
  · rw [exec_ret_of_ne_zero s h0]
    exact onSuccess_next (h h0)
  · refine onSuccess_complete (r := returnFrom s) fun t ht => ?_
    simp [returnFrom, hp] at ht

theorem onSuccess_call {nnn : BitVec 12}
    (h : ∀ hsp : s.sp.val < 16, P (jumpTo (address nnn)
      { s with stack := s.stack.set s.sp.val s.pc, sp := ⟨s.sp.val + 1, by omega⟩ })) :
    OnSuccess P (exec (.call nnn) s) := by
  obtain ⟨hsp, -⟩ | ⟨-, hp⟩ := push_cases s.pc s
  · rw [exec_call_of_lt nnn s hsp]
    exact onSuccess_next (h hsp)
  · refine onSuccess_complete (r := callTo nnn s) fun t ht => ?_
    simp [callTo, hp] at ht

/-- DRW writes the screen and VF and advances; which screen and flag is for R111 to say. -/
theorem onSuccess_drw {x y : Reg} {n : Nat} (h : ∀ fb flag, P (advance (writeV vF flag (showScreen fb s)))) :
    OnSuccess P (exec (.drw x y n) s) := by
  refine onSuccess_complete (r := drawAt x y n s) fun t ht => ?_
  unfold drawAt at ht
  split at ht
  · cases ht
  · obtain rfl := Except.ok.inj ht
    exact h _ _

theorem onSuccess_skipOnKey {want : Bool} {x : Reg}
    (h : ∀ hx : (readV s x).toNat < 16, P (skipIf (decide (s.keypad[(readV s x).toNat] = want)) s)) :
    OnSuccess P (complete s (skipOnKey want x s)) := by
  refine onSuccess_complete fun t ht => ?_
  unfold skipOnKey at ht
  obtain ⟨hx, hk⟩ | ⟨_, hk⟩ := keyState_cases (readV s x) s <;> rw [hk] at ht
  · obtain rfl := Except.ok.inj ht
    exact h hx
  · cases ht

/-- A store through I that takes no fault changes memory only. -/
theorem eq_of_writeAtI_eq_ok {bytes : List Byte} {t : State} (h : writeAtI bytes s = .ok t) :
    t = { s with mem := t.mem } := by
  unfold writeAtI at h
  split at h
  · obtain rfl := Except.ok.inj h
    rfl
  · cases h

theorem onSuccess_ldBV {x : Reg} (h : ∀ m, P (advance { s with mem := m })) : OnSuccess P (exec (.ldBV x) s) := by
  refine onSuccess_complete (r := storeDigits x s) fun t ht => ?_
  unfold storeDigits at ht
  split at ht
  · cases ht
  · next u hu =>
    obtain rfl := Except.ok.inj ht
    rw [eq_of_writeAtI_eq_ok hu]
    exact h _

theorem onSuccess_ldMV {x : Reg} (h : ∀ m, P (advance (advanceI x { s with mem := m }))) :
    OnSuccess P (exec (.ldMV x) s) := by
  refine onSuccess_complete (r := dumpRegs x s) fun t ht => ?_
  unfold dumpRegs at ht
  split at ht
  · cases ht
  · next u hu =>
    obtain rfl := Except.ok.inj ht
    rw [eq_of_writeAtI_eq_ok hu]
    exact h _

theorem onSuccess_ldVM {x : Reg} (h : ∀ v, P (advance (advanceI x { s with v := v }))) :
    OnSuccess P (exec (.ldVM x) s) := by
  refine onSuccess_complete (r := restoreRegs x s) fun t ht => ?_
  unfold restoreRegs at ht
  split at ht
  · cases ht
  · obtain rfl := Except.ok.inj ht
    exact h _

end

@[simp] theorem writeAlu_pc (x : Reg) (rf : Byte × Byte) (s : State) : (writeAlu x rf s).pc = s.pc := by
  rw [writeAlu_rest]
@[simp] theorem writeAlu_dt (x : Reg) (rf : Byte × Byte) (s : State) : (writeAlu x rf s).dt = s.dt := by
  rw [writeAlu_rest]
@[simp] theorem writeAlu_st (x : Reg) (rf : Byte × Byte) (s : State) : (writeAlu x rf s).st = s.st := by
  rw [writeAlu_rest]

/-! ### The timers after every instruction (R98) -/

/-- The timers as the timer step finds them after instruction `i` from state `s`. -/
def TimersSeen (i : Instr) (s t : State) : Prop := t.dt = delaySeen i s ∧ t.st = soundSeen i s

theorem takeKey_timersKept (x : Reg) (s : State) : TimersKept s (takeKey x s) := by
  unfold takeKey
  split <;> exact ⟨rfl, rfl⟩

theorem exec_timersSeen (i : Instr) (s : State) : OnSuccess (TimersSeen i s) (exec i s) := by
  cases i with
  | ret => exact onSuccess_ret fun _ => ⟨rfl, rfl⟩
  | call => exact onSuccess_call fun _ => ⟨rfl, rfl⟩
  | drw => exact onSuccess_drw fun _ _ => ⟨rfl, rfl⟩
  | skp | sknp => exact onSuccess_skipOnKey fun _ => ⟨rfl, rfl⟩
  | ldBV => exact onSuccess_ldBV fun _ => ⟨rfl, rfl⟩
  | ldMV => exact onSuccess_ldMV fun _ => ⟨rfl, rfl⟩
  | ldVM => exact onSuccess_ldVM fun _ => ⟨rfl, rfl⟩
  | addVV | subVV | shrV | subnVV | shlV => exact onSuccess_next ⟨writeAlu_dt .., writeAlu_st ..⟩
  | ldVK x => exact onSuccess_next (takeKey_timersKept x s)
  | cls | jp | seVB | sneVB | seVV | sneVV | jpV0 | ldVB | addVB | ldVV | orVV | andVV | xorVV | rnd | ldI | addIV | ldFV
  | ldVDT | ldDTV | ldSTV => exact onSuccess_next ⟨rfl, rfl⟩

/-! ### The pc after every instruction (R95) -/

theorem address_toNat (nnn : BitVec 12) : (address nnn).toNat = nnn.toNat := by
  have := nnn.isLt
  simp only [address, BitVec.toNat_setWidth]
  omega

theorem indexedTarget_toNat (nnn : BitVec 12) (s : State) :
    (indexedTarget nnn s).toNat = nnn.toNat + (readV s 0).toNat := by
  have := nnn.isLt
  have := (readV s 0).isLt
  simp only [indexedTarget, BitVec.toNat_add, address_toNat, BitVec.toNat_setWidth]
  omega

theorem keypad_toList_getD (s : State) (k : Fin 16) : s.keypad.toList.getD k false = s.keypad[k] := by
  simp [List.getD_eq_getElem?_getD]

/-- FX0A takes a key iff one is pressed (R183). -/
theorem pressedKey_eq_none_iff (s : State) : pressedKey s = none ↔ ¬ ∃ k : Fin 16, s.keypad[k] = true := by
  obtain ⟨hsome, hnone⟩ := scanKeys_spec s.keypad.toList 0 none
  constructor
  · rintro hp ⟨k, hk⟩
    have hoff := (hnone hp).2 k
    rw [keypad_toList_getD, hk] at hoff
    cases hoff
  · intro hno
    by_contra hp
    obtain ⟨j, hj⟩ := Option.ne_none_iff_exists'.1 hp
    obtain ⟨-, hon, -⟩ | ⟨hf, -⟩ := hsome j hj
    · have hlt : j < 16 := by
        by_contra hge
        simp [List.getD_eq_getElem?_getD, Nat.not_lt.1 hge] at hon
      exact hno ⟨⟨j, hlt⟩, by rw [← keypad_toList_getD]; exact hon⟩
    · cases hf

theorem takeKey_pc (x : Reg) (s : State) :
    (takeKey x s).pc = if ∃ k : Fin 16, s.keypad[k] = true then s.pc + 2 else s.pc := by
  unfold takeKey
  split
  · next k hk =>
    have hany : ∃ k : Fin 16, s.keypad[k] = true := by
      by_contra hno
      simp [(pressedKey_eq_none_iff s).2 hno] at hk
    rw [if_pos hany]
    rfl
  · next hk => rw [if_neg ((pressedKey_eq_none_iff s).1 hk)]

theorem exec_pcRule (i : Instr) (s : State) : OnSuccess (PcRule i s) (exec i s) := by
  cases i with
  | ret => exact onSuccess_ret fun h0 => ⟨⟨s.sp.val - 1, by omega⟩, (Nat.succ_pred_eq_of_ne_zero h0).symm, rfl⟩
  | call nnn => exact onSuccess_call fun _ => address_toNat nnn
  | jp nnn => exact onSuccess_next (address_toNat nnn)
  | jpV0 nnn => exact onSuccess_next (indexedTarget_toNat nnn s)
  | seVB | sneVB | seVV | sneVV => exact onSuccess_next (by simp [PcRule])
  | skp x => exact onSuccess_skipOnKey fun hx => ⟨⟨_, hx⟩, rfl, by simp⟩
  | sknp x =>
    refine onSuccess_skipOnKey fun hx => ⟨⟨_, hx⟩, rfl, ?_⟩
    cases s.keypad[(readV s x).toNat] <;> simp
  | ldVK x => exact onSuccess_next (takeKey_pc x s)
  | drw => exact onSuccess_drw fun _ _ => rfl
  | ldBV => exact onSuccess_ldBV fun _ => rfl
  | ldMV => exact onSuccess_ldMV fun _ => rfl
  | ldVM => exact onSuccess_ldVM fun _ => rfl
  | addVV | subVV | shrV | subnVV | shlV => exact onSuccess_next (congrArg (· + 2) (writeAlu_pc ..))
  | cls | ldVB | addVB | ldVV | orVV | andVV | xorVV | rnd | ldI | addIV | ldFV | ldVDT | ldDTV | ldSTV =>
    exact onSuccess_next rfl

/-- Settles O12: the pc of the state each instruction ends in, by the way it ends. -/
theorem everyInstructionFollowsItsPcRule : Obligations.EveryInstructionFollowsItsPcRule :=
  fun i s t _ hexec hok => exec_pcRule i s t hexec hok

end Sys2Proof.Machine
end

section
/-! PROOFS. One tick (40_cycle.md R91, R93, R98, R100): fetch, unknown opcodes, the timer step and the latch. -/

namespace Sys2Proof.Machine

/-! ### Fetch and decode -/

/-- The high byte is at the lower address (R53). -/
theorem opcodeOfBytes_toNat (hi lo : Byte) : (opcodeOfBytes hi lo).toNat = hi.toNat * 256 + lo.toNat := by
  rw [opcodeOfBytes, BitVec.toNat_append, ← Nat.shiftLeft_add_eq_or_of_lt lo.isLt, Nat.shiftLeft_eq]

theorem fetch_of_le {s : State} (h : s.pc.toNat ≤ 0x0FFE) :
    fetch s = .ok (opcodeOfBytes (Memory.read s.mem s.pc.toNat) (Memory.read s.mem (s.pc.toNat + 1))) :=
  if_neg (Nat.not_lt.2 h)

theorem fetch_of_lt {s : State} (h : 0x0FFE < s.pc.toNat) : fetch s = .error ⟨.fetchOutOfRange, s.pc.toNat⟩ :=
  if_pos h

theorem fetchDecode_of_fetch_error {s : State} {f : FaultRecord} (h : fetch s = .error f) : fetchDecode s = .error f := by
  rw [fetchDecode, h]

theorem fetchDecode_of_decode_error {s : State} {op : Word} {e : DecodeError} (hop : fetch s = .ok op)
    (he : decode op = .error e) : fetchDecode s = .error ⟨.unknownOpcode, op.toNat⟩ := by
  simp only [fetchDecode, hop, decodeOrRaise, he]

/-- A fault of fetch or decode is taken from the state before the tick (R209). -/
theorem step_of_fetchDecode_error {s : State} {f : FaultRecord} (hs : s.fault = none) (h : fetchDecode s = .error f) :
    step s = .next (raise f s) := by
  simp only [step, tick, hs, h]

/-- Settles O7: the two sides of the range check. -/
theorem fetchIsBigEndianAndRangeChecked : Obligations.FetchIsBigEndianAndRangeChecked := fun _ =>
  ⟨fun hpc => ⟨_, fetch_of_le hpc, opcodeOfBytes_toNat _ _⟩,
    fun hs hpc => step_of_fetchDecode_error hs (fetchDecode_of_fetch_error (fetch_of_lt hpc))⟩

/-- Settles O8: the decoder's error becomes the fault of the tick; 0xFFFF is in class F. -/
theorem unknownOpcodeIsTakenAsAFault : Obligations.UnknownOpcodeIsTakenAsAFault :=
  ⟨fun _ _ _ hs hop he => step_of_fetchDecode_error hs (fetchDecode_of_decode_error hop he),
    _, decode_of_classF rfl⟩

/-! ### A tick with a fault latched -/

/-- The latched fault is returned again and nothing changes (R100). -/
theorem step_of_latched {s : State} {f : FaultRecord} (h : s.fault = some f) : step s = .next s := by
  simp only [step, tick, h]

/-- A state that a step leaves as it is stays for any number of steps. -/
theorem run_of_step_self {M : Host.Core} {s : M.State} (h : M.step s = .next s) (k : Nat) : M.run k s = .next s := by
  induction k with
  | zero => rfl
  | succ k ih => simp only [Host.Core.run, h, ih]

theorem hostLoadRom_fault (font : Config.Font) (seed : Nat) (bytes : List Byte) (s : State) :
    (hostLoadRom font seed bytes s).1.fault = none := by
  obtain ⟨-, h⟩ | ⟨-, h⟩ := hostLoadRom_cases font seed bytes s <;> rw [h] <;> rfl

/-- Settles O9: a latched state is a fixed point of the step, hence of every run. -/
theorem latchedFaultStopsEveryLaterTick : Obligations.LatchedFaultStopsEveryLaterTick := fun s _ hf =>
  ⟨run_of_step_self (M := core) (step_of_latched hf), hf, fun font seed => hostInit_fault font seed s,
    fun font seed bytes => hostLoadRom_fault font seed bytes s⟩

/-! ### A tick with no fault latched -/

section
variable {s t : State} (hs : s.fault = none) (h : step s = .next t)
include hs h

/-- A tick that returns no fault is the instruction's effect and then the timer step (R96). -/
theorem step_success (ht : t.fault = none) :
    ∃ i u, fetchDecode s = .ok i ∧ exec i s = .next u ∧ u.fault = none ∧ t = timerStep u := by
  obtain ⟨f, hf, -⟩ | ⟨-, f, -, rfl⟩ | ⟨-, i, f, -, -, rfl⟩ | ⟨-, hexec⟩ := step_cases h
  · simp [hs] at hf
  · cases ht
  · cases ht
  · exact hexec

/-- A tick that newly returns a fault is that fault taken from the state before it (R97, R209). -/
theorem step_newFault (ht : t.fault ≠ none) : ∃ f, t = raise f s := by
  obtain ⟨f, hf, -⟩ | ⟨-, f, -, rfl⟩ | ⟨-, i, f, -, -, rfl⟩ | ⟨-, i, u, -, -, hu, rfl⟩ := step_cases h
  · simp [hs] at hf
  · exact ⟨f, rfl⟩
  · exact ⟨f, rfl⟩
  · exact absurd hu ht

end

/-- FX07 leaves V[x] = DT (R182). -/
theorem readV_of_exec_ldVDT {x : Reg} {s u : State} (h : exec (.ldVDT x) s = .next u) : readV u x = s.dt := by
  obtain rfl := Host.Outcome.next.inj (show execLdVDT x s = .next u from h)
  exact readV_writeV_self x s.dt s

/-- Settles O11: the instruction leaves the timers as `delaySeen` and `soundSeen` say, and one timer step follows. -/
theorem successfulTickStepsEachTimerOnce : Obligations.SuccessfulTickStepsEachTimerOnce := by
  intro s t hs hstep
  constructor
  · intro ht i hi
    obtain ⟨j, u, hj, hexec, hu, rfl⟩ := step_success hs hstep ht
    obtain rfl := Except.ok.inj (hi.symm.trans hj)
    obtain ⟨hdt, hst⟩ := exec_timersSeen i s u hexec hu
    refine ⟨⟨u, hexec, rfl⟩, ?_, ?_, ?_⟩
    · rw [timerStep_dt, countDown_toNat, hdt]
    · rw [timerStep_st, countDown_toNat, hst]
    · rintro x rfl
      exact (readV_congr (timerStep_v u) x).trans (readV_of_exec_ldVDT hexec)
  · intro ht
    obtain ⟨f, rfl⟩ := step_newFault hs hstep ht
    exact ⟨rfl, rfl⟩

end Sys2Proof.Machine
end

section
/-! PROOFS. The rules of 41_display.md: CLS (R110) and DRW (R111, R112, R113). -/

namespace Sys2Proof.Machine

/-! ### Bytes in memory (R56, D31) -/

theorem inMemory_iff (base n : Nat) : InMemory base n ↔ n = 0 ∨ base + n ≤ Config.memSize := by
  constructor
  · intro h
    by_cases hn : n = 0
    · exact .inl hn
    · have hlast : base + (n - 1) < 4096 := h (n - 1) (by omega)
      exact .inr (show base + n ≤ 4096 by omega)
  · rintro (rfl | h) k hk
    · omega
    · have : base + n ≤ 4096 := h
      omega

/-- The lowest address outside memory is the first of the n or the first above memory. -/
theorem lowestOutside_eq {base n a : Nat} (h : LowestOutside base n a) : a = max base Config.memSize := by
  obtain ⟨k, -, rfl, hout, hlow⟩ := h
  show base + k = max base 4096
  by_cases hk : k = 0
  · omega
  · have := hlow (k - 1) (by omega)
    omega

theorem not_inMemory_of_lowestOutside {base n a : Nat} (h : LowestOutside base n a) : ¬ InMemory base n := by
  obtain ⟨k, hk, rfl, hout, -⟩ := h
  exact fun hin => absurd (hin k hk) (by omega)

/-- The n bytes at I. -/
def bytesAtI (n : Nat) (s : State) : List Byte := (List.range' s.i.toNat n).map (Memory.read s.mem)

@[simp] theorem bytesAtI_length (n : Nat) (s : State) : (bytesAtI n s).length = n := by simp [bytesAtI]

theorem bytesAtI_getElem?_eq_some (n k : Nat) (s : State) (b : Byte) :
    (bytesAtI n s)[k]? = some b ↔ k < n ∧ Memory.read s.mem (s.i.toNat + k) = b := by
  simp [bytesAtI, List.getElem?_eq_some_iff]

theorem readAtI_of_inMemory {n : Nat} {s : State} (h : InMemory s.i.toNat n) :
    readAtI n s = .ok (bytesAtI n s) := by
  rw [readAtI_eq, if_pos ((inMemory_iff _ _).1 h), bytesAtI]

theorem readAtI_of_lowestOutside {n a : Nat} {s : State} (h : LowestOutside s.i.toNat n a) :
    readAtI n s = .error ⟨.memoryOutOfRange, a⟩ := by
  rw [readAtI_eq, if_neg (mt (inMemory_iff _ _).2 (not_inMemory_of_lowestOutside h)), lowestOutside_eq h]

/-! ### Drawing a set of pixels (R111) -/

/-- From canvas `cv` to `cv'` exactly the pixels `on` are flipped, and a collision is noted where one of them was on. -/
structure Drawn (on : Fin 32 → Fin 64 → Prop) (cv cv' : Canvas) : Prop where
  flips : ∀ r c, on r c → pixel cv'.1 r c = !pixel cv.1 r c
  keeps : ∀ r c, ¬ on r c → pixel cv'.1 r c = pixel cv.1 r c
  collides : cv'.2 = true ↔ cv.2 = true ∨ ∃ r c, on r c ∧ pixel cv.1 r c = true

section
variable {on on₁ on₂ : Fin 32 → Fin 64 → Prop} {cv cv₁ cv₂ : Canvas}

theorem drawn_nothing (h : ∀ r c, ¬ on r c) : Drawn on cv cv where
  flips r c hon := absurd hon (h r c)
  keeps _ _ _ := rfl
  collides := by simp [h]

/-- Drawing one set of pixels and then another draws both, if no pixel is in both. -/
theorem Drawn.trans (h₁ : Drawn on₁ cv cv₁) (h₂ : Drawn on₂ cv₁ cv₂) (hdisj : ∀ r c, on₁ r c → ¬ on₂ r c)
    (hon : ∀ r c, on r c ↔ on₁ r c ∨ on₂ r c) : Drawn on cv cv₂ where
  flips r c h := by
    obtain h | h := (hon r c).1 h
    · rw [h₂.keeps r c (hdisj r c h), h₁.flips r c h]
    · rw [h₂.flips r c h, h₁.keeps r c fun h' => hdisj r c h' h]
  keeps r c h := by
    obtain ⟨hn₁, hn₂⟩ := not_or.1 (mt (hon r c).2 h)
    rw [h₂.keeps r c hn₂, h₁.keeps r c hn₁]
  collides := by
    have hsame : ∀ r c, on₂ r c ∧ pixel cv₁.1 r c = true ↔ on₂ r c ∧ pixel cv.1 r c = true := fun r c =>
      and_congr_right fun h => by rw [h₁.keeps r c fun h' => hdisj r c h' h]
    simp only [h₂.collides, h₁.collides, hsame, hon, or_and_right, exists_or, or_assoc]

end

theorem drawBit_drawn (r : Fin 32) (c : Fin 64) (bit : Bool) (cv : Canvas) :
    Drawn (fun r' c' => r' = r ∧ c' = c ∧ bit = true) cv (drawBit r c bit cv) where
  flips := by
    rintro _ _ ⟨rfl, rfl, rfl⟩
    simp [pixel_drawBit]
  keeps r' c' h := by
    rw [pixel_drawBit]
    by_cases hrc : r' = r ∧ c' = c
    · have hbit : bit = false := by simpa [hrc] using h
      simp [hbit]
    · simp [hrc]
  collides := by simp [drawBit, and_comm]

/-! ### The loops of R111 over the columns and rows of a sprite -/

theorem wrapCol_ne {cx j k : Nat} (hj : j < 64) (hk : k < 64) (h : j ≠ k) : wrapCol cx j ≠ wrapCol cx k := by
  intro he
  have : (cx + j) % 64 = (cx + k) % 64 := congrArg Fin.val he
  omega

theorem wrapRow_ne {cy i d : Nat} (h0 : 0 < d) (hd : d < 32) : wrapRow cy i ≠ wrapRow cy (i + d) := by
  intro he
  have : (cy + i) % 32 = (cy + (i + d)) % 32 := congrArg Fin.val he
  omega

/-- The pixels of row `r` under a 1 bit of the sprite row in one of the columns `cols`. -/
def ColsOn (cx : Nat) (r : Fin 32) (row : Byte) (cols : List Nat) (r' : Fin 32) (c' : Fin 64) : Prop :=
  r' = r ∧ ∃ j ∈ cols, c' = wrapCol cx j ∧ spriteBit row j = true

theorem drawCols_drawn (cx : Nat) (r : Fin 32) (row : Byte) {cols : List Nat} (hlt : ∀ j ∈ cols, j < 64)
    (hd : cols.Nodup) (cv : Canvas) : Drawn (ColsOn cx r row cols) cv (drawCols cx r row cols cv) := by
  induction cols generalizing cv with
  | nil => exact drawn_nothing (by simp [ColsOn])
  | cons j js ih =>
    obtain ⟨hjlt, hjslt⟩ := List.forall_mem_cons.1 hlt
    obtain ⟨hj, hjs⟩ := List.nodup_cons.1 hd
    refine (drawBit_drawn r (wrapCol cx j) (spriteBit row j) cv).trans (ih hjslt hjs _) ?_ ?_
    · rintro _ _ ⟨-, rfl, -⟩ ⟨-, k, hk, he, -⟩
      exact wrapCol_ne hjlt (hjslt k hk) (fun e => hj (e ▸ hk)) he
    · simp [ColsOn, and_or_left]

/-- The pixels under a 1 bit of the sprite rows `rows`, of which the first is row `i` of the sprite. -/
def RowsOn (cx cy i : Nat) (rows : List Byte) (r : Fin 32) (c : Fin 64) : Prop :=
  ∃ k row, rows[k]? = some row ∧ ColsOn cx (wrapRow cy (i + k)) row (List.range 8) r c

theorem rowsOn_cons (cx cy i : Nat) (row : Byte) (rest : List Byte) (r : Fin 32) (c : Fin 64) :
    RowsOn cx cy i (row :: rest) r c ↔
      ColsOn cx (wrapRow cy i) row (List.range 8) r c ∨ RowsOn cx cy (i + 1) rest r c := by
  constructor
  · rintro ⟨k, row', hk, hon⟩
    cases k with
    | zero =>
      obtain rfl : row = row' := by simpa using hk
      exact .inl hon
    | succ k => exact .inr ⟨k, row', by simpa using hk, by rwa [Nat.add_right_comm]⟩
  · rintro (hon | ⟨k, row', hk, hon⟩)
    · exact ⟨0, row, rfl, hon⟩
    · exact ⟨k + 1, row', by simpa using hk, by rwa [Nat.add_right_comm] at hon⟩

/-- No two rows of a sprite of up to 32 rows fall on one pixel row (R112). -/
theorem drawRows_drawn (cx cy i : Nat) {rows : List Byte} (hlen : rows.length ≤ 32) (cv : Canvas) :
    Drawn (RowsOn cx cy i rows) cv (drawRows cx cy i rows cv) := by
  induction rows generalizing i cv with
  | nil => exact drawn_nothing (by simp [RowsOn])
  | cons row rest ih =>
    have hlen : rest.length + 1 ≤ 32 := hlen
    have hcols : ∀ j ∈ List.range 8, j < 64 := fun j hj => (List.mem_range.1 hj).trans (by decide)
    refine (drawCols_drawn cx (wrapRow cy i) row hcols List.nodup_range cv).trans (ih (i + 1) (by omega) _) ?_
      (rowsOn_cons cx cy i row rest)
    rintro _ _ ⟨rfl, -⟩ ⟨k, row', hk, he, -⟩
    obtain ⟨hk, -⟩ := List.getElem?_eq_some_iff.1 hk
    exact wrapRow_ne (by omega) (by omega) (he.trans (congrArg _ (Nat.add_assoc i 1 k)))

/-! ### The two instructions -/

/-- Settles O23: every pixel of the blank screen is off; nothing else is written but dirty and pc. -/
theorem clsBlanksTheScreenAndSetsDirty : Obligations.ClsBlanksTheScreenAndSetsDirty :=
  ⟨encodes_cls, fun _ => ⟨_, rfl, pixel_blankScreen, rfl, rfl, fun _ _ => rfl, rfl, fun _ => rfl, ⟨rfl, rfl⟩, ⟨rfl, rfl⟩,
    rfl, rfl, rfl⟩⟩

/-- The sprite DRW Vx, Vy, n draws from state `s`, on the screen of `s` (R111). -/
def drwCanvas (x y : Reg) (n : Nat) (s : State) : Canvas :=
  drawSprite (readV s x).toNat (readV s y).toNat (bytesAtI n s) s.fb

theorem exec_drw_of_inMemory {x y : Reg} {n : Nat} {s : State} (h : InMemory s.i.toNat n) :
    exec (.drw x y n) s = .next (advance (writeV vF (flagByte (drwCanvas x y n s).2)
      (showScreen (drwCanvas x y n s).1 s))) := by
  show complete s (drawAt x y n s) = _
  rw [drawAt, readAtI_of_inMemory h]
  rfl

theorem exec_drw_of_lowestOutside {x y : Reg} {n a : Nat} {s : State} (h : LowestOutside s.i.toNat n a) :
    FaultTaken .memoryOutOfRange a s (exec (.drw x y n) s) := by
  show complete s (drawAt x y n s) = _
  rw [drawAt, readAtI_of_lowestOutside h]
  rfl

/-- The pixels under the rows read at I are those of `SpriteOn`. -/
theorem rowsOn_bytesAtI (x y : Reg) (n : Nat) (s : State) (r : Fin 32) (c : Fin 64) :
    RowsOn (readV s x).toNat (readV s y).toNat 0 (bytesAtI n s) r c ↔ SpriteOn x y n s r c := by
  constructor
  · rintro ⟨i, row, hrow, rfl, j, hj, rfl, hbit⟩
    obtain ⟨hi, rfl⟩ := (bytesAtI_getElem?_eq_some n i s row).1 hrow
    exact ⟨i, j, hi, List.mem_range.1 hj, by simp [wrapRow], rfl, hbit⟩
  · rintro ⟨i, j, hi, hj, hr, hc, hbit⟩
    exact ⟨i, _, (bytesAtI_getElem?_eq_some n i s _).2 ⟨hi, rfl⟩, Fin.ext (by simp [hr, wrapRow]), j,
      List.mem_range.2 hj, Fin.ext hc, hbit⟩

theorem drwCanvas_drawn (x y : Reg) {n : Nat} (s : State) (hn : n ≤ 32) :
    Drawn (SpriteOn x y n s) (s.fb, false) (drwCanvas x y n s) := by
  rw [← funext₂ fun r c => propext (rowsOn_bytesAtI x y n s r c)]
  exact drawRows_drawn _ _ 0 (by simpa using hn) _

/-- The collision flag of R111 counts only pixels that were on before the draw. -/
theorem drwCanvas_collides_iff (x y : Reg) {n : Nat} (s : State) (hn : n ≤ 32) :
    (drwCanvas x y n s).2 = true ↔ ∃ r c, SpriteOn x y n s r c ∧ pixel s.fb r c = true := by
  simpa using (drwCanvas_drawn x y s hn).collides

/-- Settles O24: the pixels and the collision by the two loops of the draw, the fault by the range check of the reads. -/
theorem drwXorsTheSpriteAndReportsCollision : Obligations.DrwXorsTheSpriteAndReportsCollision := by
  refine ⟨encodes_drw, fun x y n s hn => ⟨fun hin => ?_, fun a => exec_drw_of_lowestOutside⟩⟩
  have hn : n ≤ 32 := by omega
  have hdrawn := drwCanvas_drawn x y s hn
  have hcol := drwCanvas_collides_iff x y s hn
  refine ⟨_, exec_drw_of_inMemory hin, hdrawn.flips, hdrawn.keeps, fun h => ?_, fun h => ?_, rfl, rfl,
    fun r hr => readV_writeV_ne _ _ hr, rfl, fun _ => rfl, ⟨rfl, rfl⟩, ⟨rfl, rfl⟩, rfl, rfl, rfl⟩
  · exact (readV_writeV_self vF _ _).trans (by rw [hcol.2 h]; rfl)
  · exact (readV_writeV_self vF _ _).trans (by rw [Bool.eq_false_iff.2 (mt hcol.1 h)]; rfl)

end Sys2Proof.Machine
end

section
/-! PROOFS. The rules of 42_control_flow.md: RET and CALL (R120, R122), the two jumps (R121, R127) and the four skips on
registers and immediates (R123-R126). -/

namespace Sys2Proof.Machine

/-! ### What the jumps and skips do -/

/-- The frame of the jumps, and of the skips, which end in a jump. -/
theorem jumpTo_onlyPcChanges (w : Word) (s : State) : OnlyPcChanges s (jumpTo w s) :=
  ⟨fun _ _ => rfl, rfl, fun _ => rfl, ⟨rfl, rfl⟩, ⟨rfl, rfl⟩, ⟨rfl, rfl⟩, rfl, rfl, rfl⟩

/-- The pc of a skip whose condition holds. -/
theorem skipIf_pc_of_pos {c : Prop} [Decidable c] (s : State) (h : c) : (skipIf (decide c) s).pc = s.pc + 4 := by
  rw [skipIf_pc, decide_eq_true h, if_pos rfl]

/-- The pc of a skip whose condition fails. -/
theorem skipIf_pc_of_neg {c : Prop} [Decidable c] (s : State) (h : ¬ c) : (skipIf (decide c) s).pc = s.pc + 2 := by
  rw [skipIf_pc, decide_eq_false h, if_neg Bool.false_ne_true]

/-- The rule of SE and SNE (R123-R126) on any two bytes: SE skips if they are equal, SNE if they are not. -/
theorem skipIf_eq_and_ne (a b : Byte) (s : State) :
    ((a = b → (skipIf (decide (a = b)) s).pc = s.pc + 4) ∧ (a ≠ b → (skipIf (decide (a = b)) s).pc = s.pc + 2) ∧
      OnlyPcChanges s (skipIf (decide (a = b)) s)) ∧
    ((a ≠ b → (skipIf (decide (a ≠ b)) s).pc = s.pc + 4) ∧ (a = b → (skipIf (decide (a ≠ b)) s).pc = s.pc + 2) ∧
      OnlyPcChanges s (skipIf (decide (a ≠ b)) s)) :=
  ⟨⟨skipIf_pc_of_pos s, skipIf_pc_of_neg s, jumpTo_onlyPcChanges _ s⟩,
    ⟨skipIf_pc_of_pos s, fun h => skipIf_pc_of_neg s (not_not_intro h), jumpTo_onlyPcChanges _ s⟩⟩

/-! ### CALL and RET where the stack stops them -/

/-- CALL with 16 entries held (R27, R122, R204). -/
theorem exec_call_of_full (nnn : BitVec 12) {s : State} (h : s.sp = 16) :
    FaultTaken .stackOverflow s.pc.toNat s (exec (.call nnn) s) := by
  show complete s (callTo nnn s) = _
  obtain ⟨hlt, -⟩ | ⟨-, hp⟩ := push_cases s.pc s
  · rw [h] at hlt
    exact absurd hlt (by decide)
  · rw [callTo, hp]
    rfl

/-- RET with no entry held (R28, R120, R205). -/
theorem exec_ret_of_empty {s : State} (h : s.sp = 0) : FaultTaken .stackUnderflow s.pc.toNat s (exec .ret s) := by
  show complete s (returnFrom s) = _
  obtain ⟨h0, -⟩ | ⟨-, hp⟩ := pop_cases s
  · exact absurd (congrArg Fin.val h) h0
  · rw [returnFrom, hp]
    rfl

/-! ### The statements -/

/-- Settles O26: with k + 1 entries held the slot popped is slot k, and a pop writes no slot. -/
theorem retResumesAfterTheCall : Obligations.RetResumesAfterTheCall := by
  refine ⟨encodes_ret, fun s => ⟨exec_ret_of_empty, fun k hk => ?_⟩⟩
  have htop : s.sp.val - 1 = k.val := by omega
  refine ⟨_, exec_ret_of_ne_zero s (by omega), ?_, htop, rfl, fun _ _ => rfl, rfl, fun _ => rfl, ⟨rfl, rfl⟩, ⟨rfl, rfl⟩,
    rfl, rfl, rfl⟩
  simp [htop]

/-- Settles O27: the target is the immediate, zero-extended. -/
theorem jpSetsPc : Obligations.JpSetsPc :=
  ⟨encodes_jp, fun nnn s => ⟨_, rfl, address_toNat nnn, jumpTo_onlyPcChanges _ s⟩⟩

/-- Settles O28: with k entries held the slot written is slot k, and no other. -/
theorem callPushesItsOwnAddress : Obligations.CallPushesItsOwnAddress := by
  refine ⟨encodes_call, fun nnn s => ⟨exec_call_of_full nnn, fun k hk => ?_⟩⟩
  refine ⟨_, exec_call_of_lt nnn s (by omega), address_toNat nnn, congrArg (· + 1) hk, ?_, fun j hj => ?_,
    fun _ _ => rfl, rfl, fun _ => rfl, ⟨rfl, rfl⟩, ⟨rfl, rfl⟩, rfl, rfl, rfl⟩
  · simp [hk]
  · have hne : s.sp.val ≠ j.val := fun e => hj (Fin.ext (e.symm.trans hk))
    simp [hne]

/-- Settles O30: the rule of the skips on V[x] and the immediate. -/
theorem immediateSkipsCompareVxWithNn : Obligations.ImmediateSkipsCompareVxWithNn :=
  ⟨encodes_seVB, encodes_sneVB, fun x nn s =>
    have ⟨hse, hsne⟩ := skipIf_eq_and_ne (readV s x) nn s
    ⟨⟨_, rfl, hse⟩, ⟨_, rfl, hsne⟩⟩⟩

/-- Settles O31: the rule of the skips on V[x] and V[y]. -/
theorem registerSkipsCompareVxWithVy : Obligations.RegisterSkipsCompareVxWithVy :=
  ⟨encodes_seVV, encodes_sneVV, fun x y s =>
    have ⟨hse, hsne⟩ := skipIf_eq_and_ne (readV s x) (readV s y) s
    ⟨⟨_, rfl, hse⟩, ⟨_, rfl, hsne⟩⟩⟩

/-- Settles O32: the sum of a 12-bit and an 8-bit number fits in 16 bits. -/
theorem indexedJumpAddsV0 : Obligations.IndexedJumpAddsV0 :=
  ⟨encodes_jpV0, fun nnn s => ⟨_, rfl, indexedTarget_toNat nnn s, jumpTo_onlyPcChanges _ s⟩⟩

end Sys2Proof.Machine
end

section
/-! PROOFS. The rules of 43_alu.md: loads, copies and bitwise instructions (R140-R145), and the five instructions that write
a result and a flag (R146-R151). -/

namespace Sys2Proof.Machine

/-! ### Instructions that write one register -/

theorem readV_advance_writeV_self (x : Reg) (b : Byte) (s : State) : readV (advance (writeV x b s)) x = b :=
  readV_writeV_self x b s

/-- All that one register write and the default pc advance leave alone. -/
theorem advance_writeV_frame (x : Reg) (b : Byte) (s : State) :
    RegsKeptBut (fun r => r = x) s (advance (writeV x b s)) ∧ OnlyRegsAndPcChange s (advance (writeV x b s)) ∧
      (advance (writeV x b s)).pc = s.pc + 2 :=
  ⟨fun _ hr => readV_writeV_ne b s hr, ⟨rfl, fun _ => rfl, ⟨rfl, rfl⟩, ⟨rfl, rfl⟩, ⟨rfl, rfl⟩, rfl, rfl, rfl⟩, rfl⟩

/-- Settles O34: each is one register write, and a byte sum wraps at 256. -/
theorem loadAndAddImmediate : Obligations.LoadAndAddImmediate :=
  ⟨encodes_ldVB, encodes_addVB, fun x nn s =>
    ⟨⟨_, rfl, readV_advance_writeV_self x nn s, advance_writeV_frame x _ s⟩,
      ⟨_, rfl, by rw [readV_advance_writeV_self, BitVec.toNat_add], advance_writeV_frame x _ s⟩⟩⟩

/-- Settles O35: each is one register write, of a copy or of a word operation read bit by bit. -/
theorem copyAndBitwiseInstructions : Obligations.CopyAndBitwiseInstructions :=
  ⟨encodes_ldVV, encodes_orVV, encodes_andVV, encodes_xorVV, fun x y s =>
    ⟨⟨_, rfl, readV_advance_writeV_self x _ s, advance_writeV_frame x _ s⟩,
      ⟨_, rfl, fun _ _ => by rw [readV_advance_writeV_self, BitVec.getLsbD_or], advance_writeV_frame x _ s⟩,
      ⟨_, rfl, fun _ _ => by rw [readV_advance_writeV_self, BitVec.getLsbD_and], advance_writeV_frame x _ s⟩,
      ⟨_, rfl, fun _ _ => by rw [readV_advance_writeV_self, BitVec.getLsbD_xor], advance_writeV_frame x _ s⟩⟩⟩

/-! ### The two writes of a flag writer -/

/-- For x = F the later write stands; for any other x the two writes commute. -/
theorem writeResultFlag_eq_writesInOrder (order : Config.VfWriteOrder) (x : Reg) (res flg : Byte) (s : State) :
    writeResultFlag order x res flg s = writesInOrder order x res flg s := by
  by_cases hx : x = vF
  · subst hx
    cases order <;> simp [writeResultFlag, writesInOrder, writeV_writeV]
  · cases order
    case flagLast => simp [writeResultFlag, writesInOrder, hx]
    case resultLast => simp [writeResultFlag, writesInOrder, hx, writeV_comm res flg s hx]

theorem endsWithBothWrites_of_exec {x : Reg} {rf : Byte × Byte} {i : Instr} {s : State}
    (h : exec i s = .next (advance (writeAlu x rf s))) : EndsWithBothWrites x rf i s := by
  rw [EndsWithBothWrites, h, ← writeResultFlag_eq_writesInOrder, ← writeAlu, advance, jumpTo, writeAlu_pc]

/-- Settles O36: the machine's operation is the two writes in order, and every flag writer ends in it. -/
theorem flagAndResultAreWrittenInOrder : Obligations.FlagAndResultAreWrittenInOrder :=
  ⟨fun _ _ _ => ⟨endsWithBothWrites_of_exec rfl, endsWithBothWrites_of_exec rfl, endsWithBothWrites_of_exec rfl,
      endsWithBothWrites_of_exec rfl, endsWithBothWrites_of_exec rfl⟩,
    writeResultFlag_eq_writesInOrder,
    fun _ res flg s => ⟨fun hx => (writeV_comm res flg s hx).symm, readV_writeV_self .., readV_writeV_self ..⟩⟩

/-- The end of a flag writer, with result and flag given as numbers: registers by the rule of R146, and the frame. -/
theorem aluResult_advance_writeAlu {rf : Byte × Byte} {res flg : Nat} (hres : rf.1.toNat = res) (hflg : rf.2.toNat = flg)
    (x : Reg) (s : State) : AluResult x res flg s (advance (writeAlu x rf s)) := by
  have hread (r : Reg) := readV_writeAlu x r rf s
  have hkept : OnlyRegsAndPcChange s (writeAlu x rf s) := by
    rw [writeAlu_rest]
    exact ⟨rfl, fun _ => rfl, ⟨rfl, rfl⟩, ⟨rfl, rfl⟩, ⟨rfl, rfl⟩, rfl, rfl, rfl⟩
  subst hres hflg
  refine ⟨fun hx => ⟨congrArg _ ((hread x).trans ?_), congrArg _ ((hread vF).trans ?_)⟩,
    fun hx horder => congrArg _ ((hread vF).trans ?_), fun hx horder => congrArg _ ((hread vF).trans ?_),
    fun r hr => (hread r).trans ?_, hkept, congrArg (· + 2) (writeAlu_pc x rf s)⟩
  · rw [if_neg hx, if_pos rfl]
  · rw [if_pos rfl, if_neg hx]
  · rw [if_pos rfl, if_pos hx, horder]
  · rw [if_pos rfl, if_pos hx, horder]
  · obtain ⟨hrx, hrF⟩ := not_or.1 hr
    rw [if_neg hrF, if_neg hrx]

/-! ### Results and flags as numbers -/

theorem flagByte_decide_toNat (c : Prop) [Decidable c] : (flagByte (decide c)).toNat = if c then 1 else 0 := by
  by_cases h : c <;> simp [flagByte, h]

theorem addWithCarry_fst_toNat (a b : Byte) : (addWithCarry a b).1.toNat = (a.toNat + b.toNat) % 256 :=
  (BitVec.toNat_ofNat ..).trans (Nat.mod_mod ..)

theorem addWithCarry_snd_toNat (a b : Byte) : (addWithCarry a b).2.toNat = if a.toNat + b.toNat > 255 then 1 else 0 :=
  flagByte_decide_toNat _

theorem subNoBorrow_fst_toNat (a b : Byte) : (subNoBorrow a b).1.toNat = (a.toNat + 256 - b.toNat) % 256 :=
  (BitVec.toNat_ofNat ..).trans (Nat.mod_mod ..)

theorem subNoBorrow_snd_toNat (a b : Byte) : (subNoBorrow a b).2.toNat = if b.toNat ≤ a.toNat then 1 else 0 :=
  flagByte_decide_toNat _

theorem shiftRight_fst_toNat (a : Byte) : (shiftRight a).1.toNat = a.toNat / 2 := by
  rw [shiftRight, BitVec.toNat_ushiftRight, Nat.shiftRight_eq_div_pow]

theorem shiftRight_snd_toNat (a : Byte) : (shiftRight a).2.toNat = a.toNat % 2 := by
  rw [shiftRight, BitVec.toNat_and]
  exact Nat.and_one_is_mod _

theorem shiftLeft_fst_toNat (a : Byte) : (shiftLeft a).1.toNat = a.toNat * 2 % 256 := by
  rw [shiftLeft, BitVec.toNat_shiftLeft, Nat.shiftLeft_eq]

/-- The old bit 7 is the quotient by 128, since a byte is less than 256. -/
theorem shiftLeft_snd_toNat (a : Byte) : (shiftLeft a).2.toNat = a.toNat / 128 := by
  have hbit : (shiftLeft a).2.toNat = a.toNat / 2 ^ 7 % 2 := by
    rw [shiftLeft, BitVec.toNat_and, BitVec.toNat_ushiftRight, Nat.shiftRight_eq_div_pow]
    exact Nat.and_one_is_mod _
  omega

/-! ### The five flag writers -/

/-- Settles O37: the sum and its carry are those of `addWithCarry`. -/
theorem addSetsCarry : Obligations.AddSetsCarry :=
  ⟨encodes_addVV, fun x _ s =>
    ⟨_, rfl, aluResult_advance_writeAlu (addWithCarry_fst_toNat ..) (addWithCarry_snd_toNat ..) x s⟩⟩

/-- Settles O38: both are `subNoBorrow`, SUBN with the operands swapped. -/
theorem subtractSetsNoBorrow : Obligations.SubtractSetsNoBorrow :=
  ⟨encodes_subVV, encodes_subnVV, fun x _ s =>
    ⟨⟨_, rfl, aluResult_advance_writeAlu (subNoBorrow_fst_toNat ..) (subNoBorrow_snd_toNat ..) x s⟩,
      ⟨_, rfl, aluResult_advance_writeAlu (subNoBorrow_fst_toNat ..) (subNoBorrow_snd_toNat ..) x s⟩⟩⟩

/-- Settles O39: neither shift reads V[y]. -/
theorem shiftsCatchTheBitShiftedOut : Obligations.ShiftsCatchTheBitShiftedOut :=
  ⟨encodes_shrV, encodes_shlV, fun x _ s =>
    ⟨⟨_, rfl, aluResult_advance_writeAlu (shiftRight_fst_toNat _) (shiftRight_snd_toNat _) x s⟩,
      ⟨_, rfl, aluResult_advance_writeAlu (shiftLeft_fst_toNat _) (shiftLeft_snd_toNat _) x s⟩⟩⟩

end Sys2Proof.Machine
end

section
/-! PROOFS. The rules of 44_index_memory.md: the index register (R160-R162), and the three transfers through it: the decimal
digits (R163), the register dump (R164) and the register load (R165). -/

namespace Sys2Proof.Machine

/-- The frame of every instruction of this family: it writes memory, registers, I and pc at most. -/
theorem devicesKept_of_eq {s t : State} (h : t = { s with mem := t.mem, v := t.v, i := t.i, pc := t.pc }) :
    DevicesKept s t := by
  rw [h]
  exact ⟨⟨rfl, rfl⟩, ⟨rfl, rfl⟩, ⟨rfl, rfl⟩, rfl, rfl, rfl⟩

/-! ### The index register -/

theorem glyphAddress_toNat (b : Byte) : (glyphAddress b).toNat = b.toNat * 5 := by
  have := b.isLt
  have hfive : (5 : Word).toNat = 5 := rfl
  rw [glyphAddress, BitVec.toNat_mul, BitVec.toNat_setWidth, hfive]
  omega

theorem indexOverflow_toNat (l : Config.IOvfLimit) (w : Word) (b : Byte) :
    (indexOverflow l w b).toNat = if indexSum w b > overflowLimit l then 1 else 0 :=
  flagByte_decide_toNat _

/-- With its x + 1 bytes in memory an instruction moves I by x + 1 without wrapping. -/
theorem advanceI_i_toNat {x : Reg} {s : State} (h : InMemory s.i.toNat (x.val + 1)) :
    (advanceI x s).i.toNat = s.i.toNat + x.val + 1 := by
  have hlast : s.i.toNat + x.val < 4096 := h x.val (by omega)
  rw [advanceI_i, BitVec.toNat_add, BitVec.toNat_ofNat]
  omega

/-! ### Bytes stored at I -/

/-- The state with the given bytes in memory at I, I+1, ... -/
def storeAtI (bytes : List Byte) (s : State) : State := { s with mem := Memory.load s.mem s.i.toNat bytes }

theorem writeAtI_of_inMemory {bytes : List Byte} {s : State} (h : InMemory s.i.toNat bytes.length) :
    writeAtI bytes s = .ok (storeAtI bytes s) := by
  have hfit := (inMemory_iff _ _).1 h
  rw [List.length_eq_zero_iff] at hfit
  rw [writeAtI_eq, if_pos hfit, storeAtI]

theorem writeAtI_of_lowestOutside {bytes : List Byte} {a : Nat} {s : State}
    (h : LowestOutside s.i.toNat bytes.length a) : writeAtI bytes s = .error ⟨.memoryOutOfRange, a⟩ := by
  have hout := mt (inMemory_iff _ _).2 (not_inMemory_of_lowestOutside h)
  rw [List.length_eq_zero_iff] at hout
  rw [writeAtI_eq, if_neg hout, lowestOutside_eq h]

theorem read_storeAtI {bytes : List Byte} {k : Nat} (hk : k < bytes.length) (s : State) :
    Memory.read (storeAtI bytes s).mem (s.i.toNat + k) = bytes[k] := by
  rw [storeAtI, read_load, if_pos (by omega), Nat.add_sub_cancel_left, List.getD_eq_getElem _ _ hk]

theorem storeAtI_memKeptOutside {bytes : List Byte} {n : Nat} (hlen : bytes.length = n) (s : State) :
    MemKeptOutside s.i.toNat n s (storeAtI bytes s) := fun _ ha => by
  rw [storeAtI, read_load, if_neg (by rwa [hlen])]

/-! ### Registers loaded from I -/

/-- The state with V0, V1, ... loaded with the n bytes at I. -/
def loadFromI (n : Nat) (s : State) : State := { s with v := loadRegs s.v 0 (bytesAtI n s) }

theorem readV_loadFromI_of_lt {n : Nat} {k : Reg} (hk : k.val < n) (s : State) :
    readV (loadFromI n s) k = Memory.read s.mem (s.i.toNat + k.val) := by
  have hbyte := (bytesAtI_getElem?_eq_some n k.val s _).2 ⟨hk, rfl⟩
  refine (loadRegs_get _ _ _ _ k.isLt).trans ?_
  rw [if_pos (by simpa using hk), Nat.sub_zero, List.getD_eq_getElem?_getD, hbyte, Option.getD_some]

theorem readV_loadFromI_of_le {n : Nat} {k : Reg} (hk : n ≤ k.val) (s : State) :
    readV (loadFromI n s) k = readV s k := by
  refine (loadRegs_get _ _ _ _ k.isLt).trans ?_
  rw [if_neg (by simpa using hk)]
  rfl

/-! ### The three transfers, with their bytes in memory and without -/

@[simp] theorem decimalDigits_length (b : Byte) : (decimalDigits b).length = 3 := rfl

theorem dumpedRegs_getElem {x k : Reg} {s : State} (hk : k.val < (dumpedRegs x s).length) :
    (dumpedRegs x s)[k.val] = readV s k := by
  simp [dumpedRegs, readV]

section
variable {x : Reg} {s : State} {a : Nat}

theorem exec_ldBV_of_inMemory (h : InMemory s.i.toNat 3) :
    exec (.ldBV x) s = .next (advance (storeAtI (decimalDigits (readV s x)) s)) := by
  show complete s (storeDigits x s) = _
  rw [storeDigits, writeAtI_of_inMemory (by rwa [decimalDigits_length])]
  rfl

theorem exec_ldBV_of_lowestOutside (h : LowestOutside s.i.toNat 3 a) :
    FaultTaken .memoryOutOfRange a s (exec (.ldBV x) s) := by
  show complete s (storeDigits x s) = _
  rw [storeDigits, writeAtI_of_lowestOutside (by rwa [decimalDigits_length])]
  rfl

theorem exec_ldMV_of_inMemory (h : InMemory s.i.toNat (x.val + 1)) :
    exec (.ldMV x) s = .next (advance (advanceI x (storeAtI (dumpedRegs x s) s))) := by
  show complete s (dumpRegs x s) = _
  rw [dumpRegs, writeAtI_of_inMemory (by rwa [dumpedRegs_length])]
  rfl

theorem exec_ldMV_of_lowestOutside (h : LowestOutside s.i.toNat (x.val + 1) a) :
    FaultTaken .memoryOutOfRange a s (exec (.ldMV x) s) := by
  show complete s (dumpRegs x s) = _
  rw [dumpRegs, writeAtI_of_lowestOutside (by rwa [dumpedRegs_length])]
  rfl

theorem exec_ldVM_of_inMemory (h : InMemory s.i.toNat (x.val + 1)) :
    exec (.ldVM x) s = .next (advance (advanceI x (loadFromI (x.val + 1) s))) := by
  show complete s (restoreRegs x s) = _
  rw [restoreRegs, readAtI_of_inMemory h]
  rfl

theorem exec_ldVM_of_lowestOutside (h : LowestOutside s.i.toNat (x.val + 1) a) :
    FaultTaken .memoryOutOfRange a s (exec (.ldVM x) s) := by
  show complete s (restoreRegs x s) = _
  rw [restoreRegs, readAtI_of_lowestOutside h]
  rfl

/-- FX55 leaves V[k] in the byte at I + k (R164). -/
theorem read_of_exec_ldMV {t : State} (h : InMemory s.i.toNat (x.val + 1)) (ht : exec (.ldMV x) s = .next t) {k : Reg}
    (hk : k.val ≤ x.val) : Memory.read t.mem (s.i.toNat + k.val) = readV s k := by
  rw [exec_ldMV_of_inMemory h] at ht
  obtain rfl := Host.Outcome.next.inj ht
  have hlt : k.val < (dumpedRegs x s).length := by
    rw [dumpedRegs_length]
    omega
  exact (read_storeAtI hlt s).trans (dumpedRegs_getElem hlt)

/-- FX65 loads V[k] with the byte at I + k (R165). -/
theorem readV_of_exec_ldVM {t : State} (h : InMemory s.i.toNat (x.val + 1)) (ht : exec (.ldVM x) s = .next t) {k : Reg}
    (hk : k.val ≤ x.val) : readV t k = Memory.read s.mem (s.i.toNat + k.val) := by
  rw [exec_ldVM_of_inMemory h] at ht
  obtain rfl := Host.Outcome.next.inj ht
  exact readV_loadFromI_of_lt (by omega) s

end

/-! ### The statements -/

/-- Settles O41: neither target address wraps. -/
theorem loadIndexAndGlyphAddress : Obligations.LoadIndexAndGlyphAddress :=
  ⟨encodes_ldI, encodes_ldFV,
    fun nnn _ => ⟨_, rfl, address_toNat nnn, rfl, fun _ _ => rfl, fun _ => rfl, devicesKept_of_eq rfl⟩,
    fun _ _ => ⟨_, rfl, glyphAddress_toNat _, rfl, fun _ _ => rfl, fun _ => rfl, devicesKept_of_eq rfl⟩⟩

/-- Settles O42: the sum and the flag are taken from the state before either write. -/
theorem addToIndexSetsOverflow : Obligations.AddToIndexSetsOverflow := by
  refine ⟨encodes_addIV, fun x s => ?_⟩
  have hflag (t : State) : (readV (writeV vF (indexOverflow Config.iOvfLimit s.i (readV s x)) t) vF).toNat =
      if indexSum s.i (readV s x) > overflowLimit Config.iOvfLimit then 1 else 0 := by
    rw [readV_writeV_self, indexOverflow_toNat]
  refine ⟨_, rfl, ?_, fun hl => (hflag _).trans (by rw [hl]; rfl), fun hl => (hflag _).trans (by rw [hl]; rfl),
    fun r hr => readV_writeV_ne _ _ hr, fun _ => rfl, devicesKept_of_eq rfl, rfl⟩
  exact (BitVec.toNat_ofNat _ _).trans (Nat.mod_mod _ _)

/-- Settles O43: each of the three digits fits in its byte. -/
theorem bcdStoresThreeDigits : Obligations.BcdStoresThreeDigits := by
  refine ⟨encodes_ldBV, fun x s => ⟨fun hin => ?_, fun a => exec_ldBV_of_lowestOutside⟩⟩
  have hread {k : Nat} (hk : k < 3) := read_storeAtI (bytes := decimalDigits (readV s x)) hk s
  have hb := (readV s x).isLt
  refine ⟨_, exec_ldBV_of_inMemory hin, (congrArg _ (hread (show 0 < 3 by omega))).trans ?_,
    (congrArg _ (hread (show 1 < 3 by omega))).trans ?_, (congrArg _ (hread (show 2 < 3 by omega))).trans ?_,
    storeAtI_memKeptOutside (decimalDigits_length _) s, fun _ _ => rfl, rfl, devicesKept_of_eq rfl, rfl⟩
  all_goals exact (BitVec.toNat_ofNat _ _).trans (Nat.mod_eq_of_lt (by omega))

/-- Settles O44: the bytes stored are V0 to V[x]. -/
theorem registerDumpStoresV0ToVx : Obligations.RegisterDumpStoresV0ToVx := by
  refine ⟨encodes_ldMV, fun x s => ⟨fun hin => ?_, fun a => exec_ldMV_of_lowestOutside⟩⟩
  have hexec := exec_ldMV_of_inMemory hin
  exact ⟨_, hexec, fun _ => read_of_exec_ldMV hin hexec, storeAtI_memKeptOutside (dumpedRegs_length x s) s,
    advanceI_i_toNat hin, fun _ _ => rfl, devicesKept_of_eq rfl, rfl⟩

/-- Settles O45: the law holds because the load reads the very bytes the dump wrote. -/
theorem registerLoadReadsV0ToVx : Obligations.RegisterLoadReadsV0ToVx := by
  refine ⟨encodes_ldVM, fun x s t m hin ht hmem hi => ?_, fun x s => ⟨fun hin => ?_, fun a => exec_ldVM_of_lowestOutside⟩⟩
  · have hinm : InMemory m.i.toNat (x.val + 1) := by rwa [hi]
    have hexec := exec_ldVM_of_inMemory hinm
    refine ⟨_, hexec, fun k hk => ?_, ?_, advanceI_i_toNat hinm⟩
    · rw [readV_of_exec_ldVM hinm hexec hk, hi, hmem, read_of_exec_ldMV hin ht hk]
    · rw [exec_ldMV_of_inMemory hin] at ht
      obtain rfl := Host.Outcome.next.inj ht
      exact advanceI_i_toNat hin
  · have hexec := exec_ldVM_of_inMemory hin
    exact ⟨_, hexec, fun _ => readV_of_exec_ldVM hin hexec, fun _ hr => readV_loadFromI_of_le (by omega) s,
      advanceI_i_toNat hin, fun _ => rfl, devicesKept_of_eq rfl, rfl⟩

end Sys2Proof.Machine
end

section
/-! PROOFS. The rules of 45_keys_timers.md: the skips on a key (R180, R181), the wait for a key (R183), and the three
transfers between a register and a timer (R182, R184, R185). -/

namespace Sys2Proof.Machine

/-! ### The highest key pressed -/

/-- R183's scan answers the pressed key above which none is pressed. -/
theorem pressedKey_eq_some_of_highest {s : State} {k : Fin 16} (hon : s.keypad[k] = true)
    (habove : ∀ j : Fin 16, k < j → s.keypad[j] = false) : pressedKey s = some k.val := by
  have hne : pressedKey s ≠ none := fun h => (pressedKey_eq_none_iff s).1 h ⟨k, hon⟩
  obtain ⟨j, hj⟩ := Option.ne_none_iff_exists'.1 hne
  obtain ⟨-, hjon, hjabove⟩ | ⟨hfound, -⟩ := (scanKeys_spec s.keypad.toList 0 none).1 j hj
  · have hjk : ¬ j < k.val := fun hlt => by
      have hoff := hjabove k.val hlt
      rw [keypad_toList_getD, hon] at hoff
      cases hoff
    have hlt : j < 16 := by
      by_contra hge
      simp [List.getD_eq_getElem?_getD, Nat.not_lt.1 hge] at hjon
    have hkj : ¬ k.val < j := fun hgt => by
      have hoff := habove ⟨j, hlt⟩ hgt
      rw [← keypad_toList_getD] at hoff
      exact Bool.false_ne_true (hoff.symm.trans hjon)
    rw [hj, Nat.le_antisymm (Nat.not_lt.1 hkj) (Nat.not_lt.1 hjk)]
  · cases hfound

/-! ### What the key instructions do, by the keypad -/

theorem takeKey_of_noKey (x : Reg) {s : State} (hoff : ∀ k : Fin 16, s.keypad[k] = false) : takeKey x s = s := by
  have hnone : pressedKey s = none :=
    (pressedKey_eq_none_iff s).2 fun ⟨k, hk⟩ => Bool.false_ne_true ((hoff k).symm.trans hk)
  rw [takeKey, hnone]

theorem takeKey_of_highest (x : Reg) {s : State} {k : Fin 16} (hon : s.keypad[k] = true)
    (habove : ∀ j : Fin 16, k < j → s.keypad[j] = false) :
    takeKey x s = advance (writeV x (BitVec.ofNat 8 k.val) s) := by
  rw [takeKey, pressedKey_eq_some_of_highest hon habove]

section
variable {x : Reg} {s : State}

/-- The rule of SKP and SKNP (R180, R181) on a register that names key k: skip iff the key is in the wanted state. -/
theorem skipOnKey_of_key (want : Bool) {k : Fin 16} (hk : (readV s x).toNat = k.val) :
    ∃ t, complete s (skipOnKey want x s) = .next t ∧ (s.keypad[k] = want → t.pc = s.pc + 4) ∧
      (s.keypad[k] = !want → t.pc = s.pc + 2) ∧ OnlyPcChanges s t := by
  obtain ⟨hlt, hkey⟩ | ⟨hge, -⟩ := keyState_cases (readV s x) s
  · have hread : s.keypad[(readV s x).toNat] = s.keypad[k] := by simp [hk]
    refine ⟨skipIf (decide (s.keypad[k] = want)) s, ?_, skipIf_pc_of_pos s, fun hnot => ?_, jumpTo_onlyPcChanges _ s⟩
    · rw [skipOnKey, hkey, hread]
      rfl
    · exact skipIf_pc_of_neg s (by simp [hnot])
  · omega

/-- A register above 15 names no key (D8). -/
theorem skipOnKey_of_noSuchKey (want : Bool) (h : 0x0F < (readV s x).toNat) :
    FaultTaken .keyIndexOutOfRange (readV s x).toNat s (complete s (skipOnKey want x s)) := by
  obtain ⟨hlt, -⟩ | ⟨-, hkey⟩ := keyState_cases (readV s x) s
  · omega
  · rw [skipOnKey, hkey]
    rfl

end

/-- All that a write of the timers and the default pc advance leave alone. -/
theorem advance_writeTimers_frame (dt st : Byte) (s : State) :
    let t := advance { s with dt := dt, st := st }
    RegsKeptBut (fun _ => False) s t ∧ t.i = s.i ∧ MemKept s t ∧ StackKept s t ∧ ScreenKept s t ∧
      InputsAndLatchKept s t ∧ t.pc = s.pc + 2 :=
  ⟨fun _ _ => rfl, rfl, fun _ => rfl, ⟨rfl, rfl⟩, ⟨rfl, rfl⟩, ⟨rfl, rfl, rfl⟩, rfl⟩

/-! ### The statements -/

/-- Settles O48: the key taken is at most 15, so the byte written is its index. -/
theorem keyWaitTakesTheHighestKey : Obligations.KeyWaitTakesTheHighestKey := by
  refine ⟨encodes_ldVK, fun x s => ⟨takeKey x s, rfl, takeKey_of_noKey x, fun k hon habove => ?_⟩⟩
  rw [takeKey_of_highest x hon habove]
  refine ⟨?_, advance_writeV_frame x _ s⟩
  rw [readV_advance_writeV_self, BitVec.toNat_ofNat]
  omega

/-- Settles O47: SKP is the key rule with `true` wanted, SKNP with `false`. -/
theorem keySkipsTestTheKeyNamedByVx : Obligations.KeySkipsTestTheKeyNamedByVx :=
  ⟨encodes_skp, encodes_sknp, fun _ _ =>
    ⟨fun _ hk => ⟨skipOnKey_of_key true hk, skipOnKey_of_key false hk⟩,
      fun h => ⟨skipOnKey_of_noSuchKey true h, skipOnKey_of_noSuchKey false h⟩⟩⟩

/-- Settles O50: the read is one register write, and the writes are each of one timer. -/
theorem timerReadsAndWrites : Obligations.TimerReadsAndWrites :=
  ⟨encodes_ldVDT, encodes_ldDTV, encodes_ldSTV, fun x s =>
    ⟨⟨_, rfl, readV_advance_writeV_self x s.dt s, advance_writeV_frame x s.dt s⟩,
      ⟨_, rfl, rfl, rfl, advance_writeTimers_frame (readV s x) s.st s⟩,
      ⟨_, rfl, rfl, rfl, advance_writeTimers_frame s.dt (readV s x) s⟩⟩⟩

end Sys2Proof.Machine
end

section
/-! PROOFS. The rule of 60_exceptions.md on the state a fault leaves (R209). -/

namespace Sys2Proof.Machine

/-- Settles O10: a newly latched fault was raised on the state before the tick, and `raise` writes the latch alone. -/
theorem faultingTickChangesOnlyTheLatch : Obligations.FaultingTickChangesOnlyTheLatch := by
  intro s t hs hstep ht
  obtain ⟨f, rfl⟩ := step_newFault hs hstep ht
  exact ⟨rfl, rfl⟩

end Sys2Proof.Machine
end

section
/-! PROOFS. The rule of 70_reset_and_hazards.md on load_rom (R233). -/

namespace Sys2Proof.Machine

/-- Inside a run of loaded bytes, offset k reads byte k. -/
theorem read_load_add {m : Memory} {a k : Nat} {bytes : List Byte} (hk : k < bytes.length) :
    Memory.read (Memory.load m a bytes) (a + k) = bytes[k] := by
  rw [read_load, if_pos (by omega), Nat.add_sub_cancel_left, List.getD_eq_getElem _ _ hk]

/-- Settles O54: whichever of its two outcomes load_rom has, the other's length bound fails; what an accepted ROM leaves in
memory is the rule for reading any address after a load. -/
theorem loadRomPlacesTheBytesAt0x200 : Obligations.LoadRomPlacesTheBytesAt0x200 := by
  intro font seed bytes s
  obtain ⟨hlong, hrom⟩ | ⟨hfits, hrom⟩ := hostLoadRom_cases font seed bytes s
  · exact ⟨fun _ => hrom, fun hle => absurd hlong (Nat.not_lt.2 hle)⟩
  · refine ⟨fun hgt => absurd hfits (Nat.not_le.2 hgt), fun _ => ⟨_, hrom, rfl, fun k hk => ?_, fun a ha => ?_⟩⟩
    · exact (List.getElem?_eq_getElem hk).trans (congrArg some (read_load_add hk).symm)
    · exact (read_load _ _ _ _).trans (if_neg ha)

end Sys2Proof.Machine
end

section
/-! PROOFS. Decode and encode (30_encoding.md R73-R78, R81): every instruction survives its opcode, a known opcode is its
instruction's in the bits examined, and the unknown opcodes are those listed. -/

namespace Sys2Proof

/-! ### From the instruction to its opcode and back -/

/-- The fields of the packed opcode are the operands; the height of a sprite fits its field when it is below 16. -/
theorem decode_encode {i : Instr} (h : i.wellFormed = true) : decode (encode i) = .ok i := by
  cases i with
  | cls | ret => rfl
  | jp | call | ldI | jpV0 => simp [encode, decode]
  | seVB | sneVB | ldVB | addVB | rnd => simp [encode, decode]
  | seVV | sneVV => simp [encode, decode]
  | ldVV | orVV | andVV | xorVV | addVV | subVV | shrV | subnVV | shlV => simp [encode, decode, decodeClass8]
  | skp | sknp => simp [encode, decode, decodeClassE]
  | ldVDT | ldVK | ldDTV | ldSTV | addIV | ldFV | ldBV | ldMV | ldVM => simp [encode, decode, decodeClassF]
  | drw x y n =>
    have hn : n < 16 := of_decide_eq_true h
    simp [encode, decode, Nat.mod_eq_of_lt hn]

/-- Settles O1: the fields of the packed opcode are the operands. -/
theorem decodeOfEncodeIsTheInstruction : Obligations.DecodeOfEncodeIsTheInstruction := fun _ => decode_encode

/-! ### From an opcode to its instruction and back -/

/-- If the answer `d` to `op` is an instruction, it is well-formed and its opcode is `op` in the bits examined. -/
def AnswersByEncoding (op : Word) (d : Except DecodeError Instr) : Prop :=
  ∀ i, d = .ok i → i.wellFormed = true ∧ encode i = op &&& examinedBits i

theorem and_FFFF (op : Word) : op &&& 0xFFFF = op := BitVec.and_allOnes

theorem packXYN_and_FFF0 (c : BitVec 4) (x y : Reg) (n : BitVec 4) : packXYN c x y n &&& 0xFFF0 = packXYN c x y 0 := by
  have h : (0xFFF0 : Word) = BitVec.allOnes 4 ++ BitVec.allOnes 4 ++ BitVec.allOnes 4 ++ 0#4 := rfl
  rw [h, packXYN, BitVec.and_append, BitVec.and_append, BitVec.and_append, BitVec.and_allOnes, BitVec.and_allOnes,
    BitVec.and_allOnes, BitVec.and_zero]
  rfl

section
variable {op : Word} {i : Instr} {c : BitVec 4}

theorem answersByEncoding_ok (hw : i.wellFormed = true) (he : encode i = op &&& examinedBits i) :
    AnswersByEncoding op (.ok i) := by
  rintro j hj
  obtain rfl := Except.ok.inj hj
  exact ⟨hw, he⟩

theorem answersByEncoding_error {e : DecodeError} : AnswersByEncoding op (.error e) := fun _ h => by cases h

theorem answersByEncoding_packNNN (hw : i.wellFormed = true) (hb : examinedBits i = 0xFFFF)
    (he : encode i = packNNN c (opNNN op)) (hc : (opClass op).toNat = c.toNat) : AnswersByEncoding op (.ok i) := by
  refine answersByEncoding_ok hw ?_
  rw [he, hb, and_FFFF, ← BitVec.eq_of_toNat_eq hc]
  exact (eq_packNNN op).symm

theorem answersByEncoding_packXNN {nn : Byte} (hw : i.wellFormed = true) (hb : examinedBits i = 0xFFFF)
    (he : encode i = packXNN c (opX op) nn) (hc : (opClass op).toNat = c.toNat) (hn : (opNN op).toNat = nn.toNat) :
    AnswersByEncoding op (.ok i) := by
  refine answersByEncoding_ok hw ?_
  rw [he, hb, and_FFFF, ← BitVec.eq_of_toNat_eq hc, ← BitVec.eq_of_toNat_eq hn]
  exact (eq_packXNN op).symm

theorem answersByEncoding_packXYN {n : BitVec 4} (hw : i.wellFormed = true) (hb : examinedBits i = 0xFFFF)
    (he : encode i = packXYN c (opX op) (opY op) n) (hc : (opClass op).toNat = c.toNat)
    (hn : (opN op).toNat = n.toNat) : AnswersByEncoding op (.ok i) := by
  refine answersByEncoding_ok hw ?_
  rw [he, hb, and_FFFF, ← BitVec.eq_of_toNat_eq hc, ← BitVec.eq_of_toNat_eq hn]
  exact (eq_packXYN op).symm

/-- 5XYN and 9XYN do not examine n (R75). -/
theorem answersByEncoding_packXY (hw : i.wellFormed = true) (hb : examinedBits i = 0xFFF0)
    (he : encode i = packXYN c (opX op) (opY op) 0) (hc : (opClass op).toNat = c.toNat) :
    AnswersByEncoding op (.ok i) := by
  refine answersByEncoding_ok hw ?_
  rw [he, hb, ← BitVec.eq_of_toNat_eq hc, ← packXYN_and_FFF0 _ _ _ (opN op), ← eq_packXYN]

/-- 0x0XE0 and 0x0XEE do not examine x (R76). -/
theorem answersByEncoding_ignoringX (hw : i.wellFormed = true) (hb : examinedBits i = 0xF0FF)
    (he : encode i &&& 0xF0FF = encode i) (hc : (opClass op).toNat = (opClass (encode i)).toNat)
    (hn : (opNN op).toNat = (opNN (encode i)).toNat) : AnswersByEncoding op (.ok i) := by
  refine answersByEncoding_ok hw ?_
  rw [hb, (and_F0FF_eq_iff op (encode i)).2 ⟨BitVec.eq_of_toNat_eq hc, BitVec.eq_of_toNat_eq hn⟩, he]

theorem decodeClass0_answersByEncoding (hc : (opClass op).toNat = 0x0) : AnswersByEncoding op (decodeClass0 op) := by
  unfold decodeClass0
  split
  iterate 2 next hn => exact answersByEncoding_ignoringX rfl rfl rfl hc hn
  exact answersByEncoding_error

theorem decodeClass8_answersByEncoding (hc : (opClass op).toNat = 0x8) : AnswersByEncoding op (decodeClass8 op) := by
  unfold decodeClass8
  split
  iterate 9 next hn => exact answersByEncoding_packXYN rfl rfl rfl hc hn
  exact answersByEncoding_error

theorem decodeClassE_answersByEncoding (hc : (opClass op).toNat = 0xE) : AnswersByEncoding op (decodeClassE op) := by
  unfold decodeClassE
  split
  iterate 2 next hn => exact answersByEncoding_packXNN rfl rfl rfl hc hn
  exact answersByEncoding_error

theorem decodeClassF_answersByEncoding (hc : (opClass op).toNat = 0xF) : AnswersByEncoding op (decodeClassF op) := by
  unfold decodeClassF
  split
  iterate 9 next hn => exact answersByEncoding_packXNN rfl rfl rfl hc hn
  exact answersByEncoding_error

end

theorem drw_opN_wellFormed (op : Word) (x y : Reg) : (Instr.drw x y (opN op).toNat).wellFormed = true :=
  decide_eq_true (opN op).isLt

theorem encode_drw_opN (op : Word) (x y : Reg) : encode (.drw x y (opN op).toNat) = packXYN 0xD x y (opN op) := by
  rw [encode, BitVec.ofNat_toNat, BitVec.setWidth_eq]

theorem decode_answersByEncoding (op : Word) : AnswersByEncoding op (decode op) := by
  unfold decode
  split
  next hc => exact decodeClass0_answersByEncoding hc
  iterate 2 next hc => exact answersByEncoding_packNNN rfl rfl rfl hc
  iterate 2 next hc => exact answersByEncoding_packXNN rfl rfl rfl hc rfl
  next hc => exact answersByEncoding_packXY rfl rfl rfl hc
  iterate 2 next hc => exact answersByEncoding_packXNN rfl rfl rfl hc rfl
  next hc => exact decodeClass8_answersByEncoding hc
  next hc => exact answersByEncoding_packXY rfl rfl rfl hc
  iterate 2 next hc => exact answersByEncoding_packNNN rfl rfl rfl hc
  next hc => exact answersByEncoding_packXNN rfl rfl rfl hc rfl
  next hc => exact answersByEncoding_packXYN (drw_opN_wellFormed op _ _) rfl (encode_drw_opN op _ _) hc rfl
  next hc => exact decodeClassE_answersByEncoding hc
  next hc => exact decodeClassF_answersByEncoding hc
  exact answersByEncoding_error

/-- Settles O2: each arm of the decoder fixes the class and the selector, and the operands are the other fields. -/
theorem knownOpcodeIsItsEncodingInExaminedBits : Obligations.KnownOpcodeIsItsEncodingInExaminedBits :=
  decode_answersByEncoding

/-! ### The unknown opcodes -/

theorem decodeClass0_unknown_iff (op : Word) :
    decodeClass0 op = .error (.unknownOpcode op) ↔ ¬ opNN op ∈ ([0xE0, 0xEE] : List Byte) := by
  unfold decodeClass0
  split
  iterate 2 next hn => simp [← BitVec.toNat_inj, hn]
  simp_all [← BitVec.toNat_inj]

theorem decodeClass8_unknown_iff (op : Word) :
    decodeClass8 op = .error (.unknownOpcode op) ↔
      opN op ∈ ([0x8, 0x9, 0xA, 0xB, 0xC, 0xD, 0xF] : List (BitVec 4)) := by
  have hlt := (opN op).isLt
  unfold decodeClass8
  split
  iterate 9 next hn => simp [← BitVec.toNat_inj, hn]
  simp only [imp_false] at *
  simp only [BitVec.ofNat_eq_ofNat, List.mem_cons, List.not_mem_nil, or_false, true_iff, ← BitVec.toNat_inj,
    BitVec.toNat_ofNat, Nat.reducePow, Nat.reduceMod, Nat.mod_succ]
  omega

theorem decodeClassE_unknown_iff (op : Word) :
    decodeClassE op = .error (.unknownOpcode op) ↔ ¬ opNN op ∈ ([0x9E, 0xA1] : List Byte) := by
  unfold decodeClassE
  split
  iterate 2 next hn => simp [← BitVec.toNat_inj, hn]
  simp_all [← BitVec.toNat_inj]

theorem decodeClassF_unknown_iff (op : Word) :
    decodeClassF op = .error (.unknownOpcode op) ↔
      ¬ opNN op ∈ ([0x07, 0x0A, 0x15, 0x18, 0x1E, 0x29, 0x33, 0x55, 0x65] : List Byte) := by
  unfold decodeClassF
  split
  iterate 9 next hn => simp [← BitVec.toNat_inj, hn]
  simp_all [← BitVec.toNat_inj]

theorem decode_ok_or_unknown (op : Word) : decode op = .error (.unknownOpcode op) ∨ ∃ i, decode op = .ok i := by
  obtain ⟨i, hi, -⟩ | he := decode_answersByRow op
  · exact .inr ⟨i, hi⟩
  · exact .inl he

/-- Outside the classes with a second-level dispatch every opcode is an instruction. -/
theorem decode_known_of_class {op : Word} (h0 : opClass op ≠ 0x0) (h8 : opClass op ≠ 0x8) (hE : opClass op ≠ 0xE)
    (hF : opClass op ≠ 0xF) : decode op ≠ .error (.unknownOpcode op) := by
  have hlt := (opClass op).isLt
  unfold decode
  split
  next hc => exact absurd (BitVec.eq_of_toNat_eq hc) h0
  iterate 7 next => exact nofun
  next hc => exact absurd (BitVec.eq_of_toNat_eq hc) h8
  iterate 5 next => exact nofun
  next hc => exact absurd (BitVec.eq_of_toNat_eq hc) hE
  next hc => exact absurd (BitVec.eq_of_toNat_eq hc) hF
  simp only [imp_false] at *
  omega

/-- Settles O4: by class; the four with a second-level dispatch have the unknown opcodes, and only those. -/
theorem unknownOpcodesAreExactlyTheListed : Obligations.UnknownOpcodesAreExactlyTheListed := by
  refine fun op => ⟨decode_ok_or_unknown op, ?_⟩
  by_cases h0 : opClass op = 0x0
  · simp [decode_of_class0 h0, decodeClass0_unknown_iff, h0]
  by_cases h8 : opClass op = 0x8
  · simp [decode_of_class8 h8, decodeClass8_unknown_iff, h8]
  by_cases hE : opClass op = 0xE
  · simp [decode_of_classE hE, decodeClassE_unknown_iff, hE]
  by_cases hF : opClass op = 0xF
  · simp [decode_of_classF hF, decodeClassF_unknown_iff, hF]
  simp only [h0, h8, hE, hF, false_and, or_false, iff_false]
  exact decode_known_of_class h0 h8 hE hF

/-- Settles O5: the decoder evaluated on the ten words. -/
theorem writtenOutWordsDecode : Obligations.WrittenOutWordsDecode := by
  refine ⟨?_, ?_, ?_, ?_, ?_, ?_, ?_, ?_, ?_, ?_⟩ <;> decide

end Sys2Proof
end

section
/-! PROOFS. The canonical form of memory (20_memory.md section 1; the model's own, log 15): it is determined by what it
reads. -/

namespace Sys2Proof.Machine

theorem wfFrom_cons {lo : Nat} {c : Host.Cell} {rest : Memory} :
    Memory.wfFrom lo (c :: rest) = true ↔
      lo ≤ c.1 ∧ c.1 < Config.memSize ∧ c.2 ≠ resetByte c.1 ∧ Memory.wfFrom (c.1 + 1) rest = true := by
  simp only [Memory.wfFrom, Bool.and_eq_true, decide_eq_true_eq, and_assoc]

theorem lookup_cons_self (c : Host.Cell) (rest : Memory) : Memory.lookup (c :: rest) c.1 = some c.2 := if_pos rfl

theorem lookup_cons_ne {c : Host.Cell} {rest : Memory} {a : Nat} (h : c.1 ≠ a) :
    Memory.lookup (c :: rest) a = Memory.lookup rest a := if_neg h

theorem lookup_eq_none_of_lt {lo a : Nat} {m : Memory} (hw : Memory.wfFrom lo m = true) (ha : a < lo) :
    Memory.lookup m a = none := by
  induction m generalizing lo with
  | nil => rfl
  | cons c rest ih =>
    obtain ⟨hlo, -, -, hrest⟩ := wfFrom_cons.1 hw
    rw [lookup_cons_ne (by omega), ih hrest (by omega)]

/-- What is listed is no reset byte. -/
theorem ne_resetByte_of_lookup {lo a : Nat} {b : Byte} {m : Memory} (hw : Memory.wfFrom lo m = true)
    (h : Memory.lookup m a = some b) : b ≠ resetByte a := by
  induction m generalizing lo with
  | nil => cases h
  | cons c rest ih =>
    obtain ⟨-, -, hc, hrest⟩ := wfFrom_cons.1 hw
    by_cases hca : c.1 = a
    · subst hca
      obtain rfl := Option.some.inj ((lookup_cons_self c rest).symm.trans h)
      exact hc
    · exact ih hrest ((lookup_cons_ne hca).symm.trans h)

/-- An address is listed iff it does not read as its reset byte. -/
theorem lookup_eq_of_wf {m : Memory} (hw : Memory.wf m = true) (a : Nat) :
    Memory.lookup m a = if Memory.read m a = resetByte a then none else some (Memory.read m a) := by
  unfold Memory.read
  cases h : Memory.lookup m a with
  | none => simp
  | some b => simp [ne_resetByte_of_lookup hw h]

/-- By the first cell of each list: the lower of two first addresses would be listed in one memory only. -/
theorem eq_of_lookup_eq {lo : Nat} {m m' : Memory} (hw : Memory.wfFrom lo m = true) (hw' : Memory.wfFrom lo m' = true)
    (h : ∀ a, Memory.lookup m a = Memory.lookup m' a) : m = m' := by
  induction m generalizing lo m' with
  | nil =>
    cases m' with
    | nil => rfl
    | cons c' rest' => cases (h c'.1).trans (lookup_cons_self c' rest')
  | cons c rest ih =>
    cases m' with
    | nil => cases (lookup_cons_self c rest).symm.trans (h c.1)
    | cons c' rest' =>
      obtain ⟨-, -, -, hrest⟩ := wfFrom_cons.1 hw
      obtain ⟨-, -, -, hrest'⟩ := wfFrom_cons.1 hw'
      have hself := (lookup_cons_self c rest).symm.trans (h c.1)
      have hself' := (h c'.1).trans (lookup_cons_self c' rest')
      obtain hlt | heq | hgt := Nat.lt_trichotomy c.1 c'.1
      · rw [lookup_cons_ne (by omega), lookup_eq_none_of_lt hrest' (by omega)] at hself
        cases hself
      · rw [heq, lookup_cons_self] at hself
        obtain rfl : c = c' := Prod.ext heq (Option.some.inj hself)
        refine congrArg _ (ih hrest hrest' fun a => ?_)
        by_cases ha : c.1 = a
        · rw [lookup_eq_none_of_lt hrest (by omega), lookup_eq_none_of_lt hrest' (by omega)]
        · rw [← lookup_cons_ne ha, h, lookup_cons_ne ha]
      · rw [lookup_cons_ne (by omega), lookup_eq_none_of_lt hrest (by omega)] at hself'
        cases hself'

/-- Settles O17: memories that read alike list the same bytes, and the order of a canonical list is fixed. -/
theorem memoriesThatReadAlikeAreEqual : Obligations.MemoriesThatReadAlikeAreEqual := fun m m' hw hw' hread =>
  eq_of_lookup_eq hw hw' fun a => by rw [lookup_eq_of_wf hw, lookup_eq_of_wf hw', hread a]

end Sys2Proof.Machine
end

section
/-! PROOFS. How every instruction ends, with the fault explained (60_exceptions.md R201, R209), and what it leaves alone:
the stores (10_state.md R25-R34, 20_memory.md R51, R52) and the general registers (R22, R23). -/

namespace Sys2Proof.Machine

/-! ### How an instruction ends -/

/-- The outcome is a state with `P`, or a fault that the state `s` explains, taken from `s`. -/
def EndsIn (P : State → Prop) (s : State) (o : Host.Outcome State Fault Refusal) : Prop :=
  (∃ t, o = .next t ∧ P t) ∨ ∃ f, Explains s f ∧ o = .next (raise f s)

section
variable {P Q : State → Prop} {s : State}

theorem EndsIn.mono {o : Host.Outcome State Fault Refusal} (h : EndsIn P s o) (hPQ : ∀ t, P t → Q t) :
    EndsIn Q s o := by
  obtain ⟨t, ho, ht⟩ | hf := h
  · exact .inl ⟨t, ho, hPQ t ht⟩
  · exact .inr hf

theorem EndsIn.cases {o : Host.Outcome State Fault Refusal} (h : EndsIn P s o) {t : State} (ho : o = .next t) :
    P t ∨ ∃ f, Explains s f ∧ t = raise f s := by
  obtain ⟨u, hu, hP⟩ | ⟨f, hf, hu⟩ := h <;> obtain rfl := Host.Outcome.next.inj (ho.symm.trans hu)
  · exact .inl hP
  · exact .inr ⟨f, hf, rfl⟩

theorem EndsIn.onSuccess {o : Host.Outcome State Fault Refusal} (h : EndsIn P s o) : OnSuccess P o := by
  intro t ho ht
  obtain hP | ⟨f, -, rfl⟩ := h.cases ho
  · exact hP
  · cases ht

theorem endsIn_next {t : State} (h : P t) : EndsIn P s (.next t) := .inl ⟨t, rfl, h⟩

theorem endsIn_fault {c : FaultCode} {info : Nat} {o : Host.Outcome State Fault Refusal} (h : FaultTaken c info s o)
    (he : Explains s ⟨c, info⟩) : EndsIn P s o := .inr ⟨_, he, h⟩

/-- A transfer of n bytes through I: all of them lie in memory, or the fault names the lowest that does not (R206). -/
theorem inMemory_or_lowestOutside (base n : Nat) : InMemory base n ∨ LowestOutside base n (max base 4096) := by
  by_cases h : InMemory base n
  · exact .inl h
  · obtain ⟨hn, hout⟩ : n ≠ 0 ∧ 4096 < base + n := by
      simpa [inMemory_iff, Config.memSize] using h
    exact .inr ⟨max base 4096 - base, by omega, by omega, by omega, by omega⟩

theorem endsIn_transfer {n : Nat} {o : Host.Outcome State Fault Refusal} (hok : InMemory s.i.toNat n → EndsIn P s o)
    (hfault : ∀ a, LowestOutside s.i.toNat n a → FaultTaken .memoryOutOfRange a s o) : EndsIn P s o := by
  obtain hin | hout := inMemory_or_lowestOutside s.i.toNat n
  · exact hok hin
  · exact endsIn_fault (hfault _ hout) rfl

theorem endsIn_ret
    (h : s.sp.val ≠ 0 → P (jumpTo (s.stack[s.sp.val - 1] + 2) { s with sp := ⟨s.sp.val - 1, by omega⟩ })) :
    EndsIn P s (exec .ret s) := by
  by_cases h0 : s.sp = 0
  · exact endsIn_fault (exec_ret_of_empty h0) ⟨h0, rfl⟩
  · have h0 : s.sp.val ≠ 0 := fun e => h0 (Fin.ext e)
    exact .inl ⟨_, exec_ret_of_ne_zero s h0, h h0⟩

theorem endsIn_call {nnn : BitVec 12}
    (h : ∀ hsp : s.sp.val < 16, P (jumpTo (address nnn)
      { s with stack := s.stack.set s.sp.val s.pc, sp := ⟨s.sp.val + 1, by omega⟩ })) :
    EndsIn P s (exec (.call nnn) s) := by
  obtain ⟨hsp, -⟩ | ⟨h16, -⟩ := push_cases s.pc s
  · exact .inl ⟨_, exec_call_of_lt nnn s hsp, h hsp⟩
  · exact endsIn_fault (exec_call_of_full nnn h16) ⟨h16, rfl⟩

theorem endsIn_drw {x y : Reg} {n : Nat} (h : P (advance (writeV vF (flagByte (drwCanvas x y n s).2)
    (showScreen (drwCanvas x y n s).1 s)))) : EndsIn P s (exec (.drw x y n) s) :=
  endsIn_transfer (fun hin => .inl ⟨_, exec_drw_of_inMemory hin, h⟩) fun _ => exec_drw_of_lowestOutside

theorem endsIn_skipOnKey {want : Bool} {x : Reg} (h : ∀ c, P (skipIf c s)) :
    EndsIn P s (complete s (skipOnKey want x s)) := by
  obtain ⟨_, hkey⟩ | ⟨hge, -⟩ := keyState_cases (readV s x) s
  · rw [skipOnKey, hkey]
    exact endsIn_next (h _)
  · exact endsIn_fault (skipOnKey_of_noSuchKey want hge) ⟨hge, x, rfl⟩

theorem endsIn_ldBV {x : Reg} (h : InMemory s.i.toNat 3 → P (advance (storeAtI (decimalDigits (readV s x)) s))) :
    EndsIn P s (exec (.ldBV x) s) :=
  endsIn_transfer (fun hin => .inl ⟨_, exec_ldBV_of_inMemory hin, h hin⟩) fun _ => exec_ldBV_of_lowestOutside

theorem endsIn_ldMV {x : Reg}
    (h : InMemory s.i.toNat (x.val + 1) → P (advance (advanceI x (storeAtI (dumpedRegs x s) s)))) :
    EndsIn P s (exec (.ldMV x) s) :=
  endsIn_transfer (fun hin => .inl ⟨_, exec_ldMV_of_inMemory hin, h hin⟩) fun _ => exec_ldMV_of_lowestOutside

theorem endsIn_ldVM {x : Reg} (h : P (advance (advanceI x (loadFromI (x.val + 1) s)))) :
    EndsIn P s (exec (.ldVM x) s) :=
  endsIn_transfer (fun hin => .inl ⟨_, exec_ldVM_of_inMemory hin, h⟩) fun _ => exec_ldVM_of_lowestOutside

end

/-! ### The stores an instruction writes -/

/-- The elements of the state an instruction that takes no fault may write; dirty is set where the screen is written. -/
def WritesOnly (i : Instr) (s t : State) : Prop :=
  match i with
  | .ret | .call _ => t = { s with pc := t.pc, stack := t.stack, sp := t.sp }
  | .cls | .drw _ _ _ => t = { s with pc := t.pc, v := t.v, fb := t.fb, dirty := true }
  | .ldBV _ => t = { s with pc := t.pc, mem := t.mem }
  | .ldMV _ => t = { s with pc := t.pc, mem := t.mem, i := t.i }
  | .ldI _ | .addIV _ | .ldFV _ | .ldVM _ => t = { s with pc := t.pc, v := t.v, i := t.i }
  | .ldDTV _ => t = { s with pc := t.pc, dt := t.dt }
  | .ldSTV _ => t = { s with pc := t.pc, st := t.st }
  | .rnd _ _ => t = { s with pc := t.pc, v := t.v, draws := t.draws }
  | .jp _ | .jpV0 _ | .seVB _ _ | .sneVB _ _ | .seVV _ _ | .sneVV _ _ | .skp _ | .sknp _ | .ldVB _ _ | .addVB _ _
  | .ldVV _ _ | .orVV _ _ | .andVV _ _ | .xorVV _ _ | .addVV _ _ | .subVV _ _ | .shrV _ _ | .subnVV _ _ | .shlV _ _
  | .ldVDT _ | .ldVK _ => t = { s with pc := t.pc, v := t.v }

theorem advance_writeAlu_eq (x : Reg) (rf : Byte × Byte) (s : State) :
    advance (writeAlu x rf s) =
      { s with pc := (advance (writeAlu x rf s)).pc, v := (advance (writeAlu x rf s)).v } := by
  rw [writeAlu_rest]
  rfl

theorem takeKey_eq (x : Reg) (s : State) : takeKey x s = { s with pc := (takeKey x s).pc, v := (takeKey x s).v } := by
  unfold takeKey
  split <;> rfl

theorem exec_writesOnly (i : Instr) (s : State) : EndsIn (WritesOnly i s) s (exec i s) := by
  cases i with
  | ret => exact endsIn_ret fun _ => rfl
  | call => exact endsIn_call fun _ => rfl
  | drw => exact endsIn_drw rfl
  | skp | sknp => exact endsIn_skipOnKey fun _ => rfl
  | ldBV => exact endsIn_ldBV fun _ => rfl
  | ldMV => exact endsIn_ldMV fun _ => rfl
  | ldVM => exact endsIn_ldVM rfl
  | addVV | subVV | shrV | subnVV | shlV => exact endsIn_next (advance_writeAlu_eq ..)
  | ldVK x => exact endsIn_next (takeKey_eq x s)
  | cls | jp | seVB | sneVB | seVV | sneVV | jpV0 | ldVB | addVB | ldVV | orVV | andVV | xorVV | rnd | ldI | addIV | ldFV
  | ldVDT | ldDTV | ldSTV => exact endsIn_next rfl

section
variable {i : Instr} {s t : State} (h : WritesOnly i s t)
include h

theorem WritesOnly.fault : t.fault = s.fault := by cases i <;> exact (congrArg State.fault h).trans rfl

theorem WritesOnly.keypad : t.keypad = s.keypad := by cases i <;> exact (congrArg State.keypad h).trans rfl

theorem WritesOnly.stackKept (hret : i ≠ .ret) (hcall : ∀ nnn, i ≠ .call nnn) : StackKept s t := by
  cases i with
  | ret => exact absurd rfl hret
  | call nnn => exact absurd rfl (hcall nnn)
  | _ => exact ⟨(congrArg State.stack h).trans rfl, (congrArg State.sp h).trans rfl⟩

theorem WritesOnly.screenKept (hcls : i ≠ .cls) (hdrw : ∀ x y n, i ≠ .drw x y n) : ScreenKept s t := by
  cases i with
  | cls => exact absurd rfl hcls
  | drw x y n => exact absurd rfl (hdrw x y n)
  | _ => exact ⟨(congrArg State.fb h).trans rfl, (congrArg State.dirty h).trans rfl⟩

theorem WritesOnly.dirty (hd : s.dirty = true) : t.dirty = true := by
  cases i with
  | cls | drw => exact (congrArg State.dirty h).trans rfl
  | _ => exact (congrArg State.dirty h).trans hd

theorem WritesOnly.mem (hB : ∀ x, i ≠ .ldBV x) (hM : ∀ x, i ≠ .ldMV x) : t.mem = s.mem := by
  cases i with
  | ldBV x => exact absurd rfl (hB x)
  | ldMV x => exact absurd rfl (hM x)
  | _ => exact (congrArg State.mem h).trans rfl

theorem WritesOnly.dt (hDT : ∀ x, i ≠ .ldDTV x) : t.dt = s.dt := by
  cases i with
  | ldDTV x => exact absurd rfl (hDT x)
  | _ => exact (congrArg State.dt h).trans rfl

theorem WritesOnly.st (hST : ∀ x, i ≠ .ldSTV x) : t.st = s.st := by
  cases i with
  | ldSTV x => exact absurd rfl (hST x)
  | _ => exact (congrArg State.st h).trans rfl

theorem WritesOnly.index (hI : ∀ nnn, i ≠ .ldI nnn) (hadd : ∀ x, i ≠ .addIV x) (hF : ∀ x, i ≠ .ldFV x)
    (hM : ∀ x, i ≠ .ldMV x) (hL : ∀ x, i ≠ .ldVM x) : t.i = s.i := by
  cases i with
  | ldI nnn => exact absurd rfl (hI nnn)
  | addIV x => exact absurd rfl (hadd x)
  | ldFV x => exact absurd rfl (hF x)
  | ldMV x => exact absurd rfl (hM x)
  | ldVM x => exact absurd rfl (hL x)
  | _ => exact (congrArg State.i h).trans rfl

theorem WritesOnly.draws (hrnd : ∀ x nn, i ≠ .rnd x nn) : t.draws = s.draws := by
  cases i with
  | rnd x nn => exact absurd rfl (hrnd x nn)
  | _ => exact (congrArg State.draws h).trans rfl

end

/-- Settles O18: by the elements each instruction may write; a fault writes the latch alone. -/
theorem eachStoreIsWrittenOnlyByItsInstructions : Obligations.EachStoreIsWrittenOnlyByItsInstructions := by
  intro i s t hexec
  obtain h | ⟨f, -, rfl⟩ := (exec_writesOnly i s).cases hexec
  · exact ⟨h.keypad, h.dirty, h.stackKept, h.screenKept, fun hB hM _ => by rw [h.mem hB hM], h.dt, h.st, h.index, h.draws⟩
  · exact ⟨rfl, id, fun _ _ => ⟨rfl, rfl⟩, fun _ _ => ⟨rfl, rfl⟩, fun _ _ _ => rfl, fun _ => rfl, fun _ => rfl,
      fun _ _ _ _ _ => rfl, fun _ => rfl⟩

/-! ### The registers an instruction writes -/

theorem readV_takeKey_ne {x r : Reg} (s : State) (h : r ≠ x) : readV (takeKey x s) r = readV s r := by
  unfold takeKey
  split
  · exact readV_writeV_ne _ s h
  · rfl

theorem readV_writeAlu_of_ne {x r : Reg} (rf : Byte × Byte) (s : State) (h : ¬ (r = x ∨ r = vF)) :
    readV (writeAlu x rf s) r = readV s r := by
  obtain ⟨hx, hF⟩ := not_or.1 h
  rw [readV_writeAlu, if_neg hF, if_neg hx]

theorem exec_regsKeptBut_mayWrite (i : Instr) (s : State) :
    EndsIn (RegsKeptBut (MayWrite i) s) s (exec i s) := by
  cases i with
  | ret => exact endsIn_ret fun _ _ _ => rfl
  | call => exact endsIn_call fun _ _ _ => rfl
  | skp | sknp => exact endsIn_skipOnKey fun _ _ _ => rfl
  | ldBV => exact endsIn_ldBV fun _ _ _ => rfl
  | ldMV => exact endsIn_ldMV fun _ _ _ => rfl
  | cls | jp | seVB | sneVB | seVV | sneVV | jpV0 | ldI | ldFV | ldDTV | ldSTV => exact endsIn_next fun _ _ => rfl
  | ldVB | addVB | ldVV | orVV | andVV | xorVV | rnd | ldVDT => exact endsIn_next fun _ hr => readV_writeV_ne _ _ hr
  | ldVK => exact endsIn_next fun _ hr => readV_takeKey_ne s hr
  | addVV | subVV | shrV | subnVV | shlV => exact endsIn_next fun _ hr => readV_writeAlu_of_ne _ s hr
  | addIV => exact endsIn_next fun _ hr => readV_writeV_ne _ _ hr
  | drw => exact endsIn_drw fun _ hr => readV_writeV_ne _ _ hr
  | ldVM => exact endsIn_ldVM fun _ hr => readV_loadFromI_of_le (Nat.lt_of_not_le hr) s

/-- Settles O19: by the registers each instruction may write; a fault writes none. -/
theorem registersAreWrittenOnlyAsListed : Obligations.RegistersAreWrittenOnlyAsListed := by
  intro i s t r hexec hr
  obtain h | ⟨f, -, rfl⟩ := (exec_regsKeptBut_mayWrite i s).cases hexec
  · exact h r hr
  · rfl

end Sys2Proof.Machine
end

section
/-! PROOFS. What every tick and every operation of the host keeps: the invariant of the machine (R24, R29, R35) and the
explanation of a latched fault (R201, R209). -/

namespace Sys2Proof.Machine

/-! ### The fault a tick takes is explained by the state before it -/

/-- The decoder's only error on an opcode is that it is unknown. -/
theorem decode_error_eq {op : Word} {e : DecodeError} (h : decode op = .error e) : e = .unknownOpcode op := by
  obtain hu | ⟨i, hi⟩ := decode_ok_or_unknown op
  · exact Except.error.inj (h.symm.trans hu)
  · cases h.symm.trans hi

theorem explains_of_fetchDecode_error {s : State} {f : FaultRecord} (h : fetchDecode s = .error f) : Explains s f := by
  by_cases hpc : s.pc.toNat ≤ 0x0FFE
  · have hop := fetch_of_le hpc
    cases hd : decode (opcodeOfBytes (Memory.read s.mem s.pc.toNat) (Memory.read s.mem (s.pc.toNat + 1))) with
    | ok i => simp [fetchDecode, hop, decodeOrRaise, hd] at h
    | error e =>
      obtain rfl := Except.error.inj ((fetchDecode_of_decode_error hop hd).symm.trans h)
      obtain rfl := decode_error_eq hd
      exact ⟨_, hop, hd, rfl⟩
  · have hpc := Nat.lt_of_not_le hpc
    obtain rfl := Except.error.inj ((fetchDecode_of_fetch_error (fetch_of_lt hpc)).symm.trans h)
    exact ⟨hpc, rfl⟩

theorem explains_of_exec_raise {i : Instr} {s : State} {f : FaultRecord} (hs : s.fault = none)
    (h : exec i s = .next (raise f s)) : Explains s f := by
  obtain hw | ⟨g, hg, heq⟩ := (exec_writesOnly i s).cases h
  · cases hw.fault.trans hs
  · obtain rfl : f = g := Option.some.inj (congrArg State.fault heq)
    exact hg

/-- Everything a tick can do to the latch: return the latched fault again; latch a fault that the state explains; or run
an instruction that takes no fault, and then the timer step. -/
theorem step_explained_cases {s t : State} (h : step s = .next t) :
    t = s ∨ (∃ f, Explains s f ∧ t = raise f s) ∨
    ∃ i u, fetchDecode s = .ok i ∧ exec i s = .next u ∧ u.fault = none ∧ t = timerStep u := by
  obtain ⟨-, -, rfl⟩ | ⟨-, f, hd, rfl⟩ | ⟨hs, i, f, -, hexec, rfl⟩ | ⟨-, hsucc⟩ := step_cases h
  · exact .inl rfl
  · exact .inr (.inl ⟨f, explains_of_fetchDecode_error hd, rfl⟩)
  · exact .inr (.inl ⟨f, explains_of_exec_raise hs hexec, rfl⟩)
  · exact .inr (.inr hsucc)

/-! ### A latched fault stays explained -/

theorem explains_congr {s t : State} (hmem : t.mem = s.mem) (hv : t.v = s.v) (hsp : t.sp = s.sp) (hpc : t.pc = s.pc)
    (hi : t.i = s.i) (f : FaultRecord) : Explains t f ↔ Explains s f := by
  obtain ⟨code, info⟩ := f
  cases code <;> simp only [Explains, fetch, readV, hmem, hv, hsp, hpc, hi]

theorem faultExplained_of_none {s : State} (h : s.fault = none) : FaultExplained s := fun _ hf => by cases h.symm.trans hf

theorem faultExplained_raise {s : State} {f : FaultRecord} (h : Explains s f) : FaultExplained (raise f s) := by
  intro g hg
  obtain rfl : f = g := Option.some.inj hg
  exact (explains_congr (t := raise f s) rfl rfl rfl rfl rfl f).2 h

theorem step_keeps_faultExplained {s t : State} (hs : FaultExplained s) (h : step s = .next t) : FaultExplained t := by
  obtain rfl | ⟨f, hf, rfl⟩ | ⟨_, u, -, -, hu, rfl⟩ := step_explained_cases h
  · exact hs
  · exact faultExplained_raise hf
  · exact faultExplained_of_none hu

/-- Settles O16: a fault newly latched is explained by the state it leaves unchanged; of the other operations, those that
do not clear the latch write nothing an explanation reads. -/
theorem latchedFaultStaysExplained : Obligations.LatchedFaultStaysExplained := by
  intro font op s t hs h
  cases op with
  | tick => exact step_keeps_faultExplained hs h
  | init seed =>
    obtain rfl := Host.Outcome.next.inj h
    exact faultExplained_of_none (hostInit_fault font seed s)
  | loadRom seed bytes =>
    obtain rfl := Host.Outcome.next.inj h
    exact faultExplained_of_none (hostLoadRom_fault font seed bytes s)
  | writeKey k b =>
    obtain rfl := Host.Outcome.next.inj h
    exact fun f hf => (explains_congr (t := hostWriteKey k b s) rfl rfl rfl rfl rfl f).2 (hs f hf)
  | clearDirty =>
    obtain rfl := Host.Outcome.next.inj h
    exact fun f hf => (explains_congr (t := hostClearDirty s) rfl rfl rfl rfl rfl f).2 (hs f hf)
  | readFramebuffer =>
    obtain rfl := Host.Outcome.next.inj h
    exact hs

/-! ### The invariant of the machine after one instruction -/

theorem pc_le_of_fetchDecode_ok {s : State} {i : Instr} (h : fetchDecode s = .ok i) : s.pc.toNat ≤ 0x0FFE := by
  by_contra hpc
  cases (fetchDecode_of_fetch_error (fetch_of_lt (Nat.lt_of_not_le hpc))).symm.trans h

theorem exec_keepsWf (i : Instr) {s : State} (hw : Memory.wf s.mem = true) :
    EndsIn (fun t => Memory.wf t.mem = true) s (exec i s) := by
  have hstore {bytes : List Byte} {n : Nat} (hlen : bytes.length = n) (hn : n ≠ 0) (hin : InMemory s.i.toNat n) :
      Memory.wf (storeAtI bytes s).mem = true :=
    wf_load (hlen ▸ ((inMemory_iff _ _).1 hin).resolve_left hn) hw
  cases i with
  | ldBV x => exact endsIn_ldBV (hstore (decimalDigits_length _) (by omega))
  | ldMV x => exact endsIn_ldMV (hstore (dumpedRegs_length x s) (by omega))
  | _ => exact (exec_writesOnly _ s).mono fun t h => by rw [h.mem nofun nofun, hw]

/-- CALL pushes the address it was fetched from, and RET drops the top entry (R29). -/
theorem exec_keepsStackOfCalls (i : Instr) {s : State} (hpc : s.pc.toNat ≤ 0x0FFE) (hs : StackOfCalls s) :
    EndsIn StackOfCalls s (exec i s) := by
  cases i with
  | ret => exact endsIn_ret fun _ k hk => hs k (Nat.lt_of_lt_of_le hk (Nat.sub_le _ _))
  | call nnn =>
    refine endsIn_call fun hsp k hk => ?_
    have hk : k.val < s.sp.val + 1 := hk
    by_cases hkt : s.sp.val = k.val
    · simpa [hkt, Config.lastFetch] using hpc
    · simpa [hkt] using hs k (by omega)
  | _ =>
    refine (exec_writesOnly _ s).mono fun t h => ?_
    obtain ⟨hstack, hsp⟩ := h.stackKept nofun nofun
    intro k hk
    rw [hstack]
    exact hs k (hsp ▸ hk)

theorem toNat_ite_le {c : Prop} [Decidable c] {a b : Word} {m : Nat} (ha : a.toNat ≤ m) (hb : b.toNat ≤ m) :
    (if c then a else b).toNat ≤ m := by
  split
  · exact ha
  · exact hb

/-- No pc rule leaves the reach of R24: the farthest target is that of BNNN, 0xFFF plus 0xFF. -/
theorem pcInReach_of_pcRule {i : Instr} {s t : State} (hpc : s.pc.toNat ≤ 0x0FFE) (hs : StackOfCalls s)
    (h : PcRule i s t) : PcInReach t := by
  have hadd2 {w : Word} (hw : w.toNat ≤ 0x0FFE) : (w + 2).toNat ≤ 0x10FE := by bv_omega
  have hstay : s.pc.toNat ≤ 0x10FE := by omega
  have hnext : (s.pc + 2).toNat ≤ 0x10FE := hadd2 hpc
  have hskip : (s.pc + 4).toNat ≤ 0x10FE := by bv_omega
  cases i with
  | ret =>
    obtain ⟨k, hk, ht⟩ := h
    exact (congrArg BitVec.toNat ht).trans_le (hadd2 (hs k (by omega)))
  | jp nnn | call nnn =>
    have hlt := nnn.isLt
    exact (show t.pc.toNat = nnn.toNat from h).trans_le (by omega)
  | jpV0 nnn =>
    have hlt := nnn.isLt
    have hltV := (readV s 0).isLt
    exact (show t.pc.toNat = nnn.toNat + (readV s 0).toNat from h).trans_le (by omega)
  | seVB | seVV => exact (congrArg BitVec.toNat h).trans_le (toNat_ite_le hskip hnext)
  | sneVB | sneVV => exact (congrArg BitVec.toNat h).trans_le (toNat_ite_le hnext hskip)
  | skp =>
    obtain ⟨k, -, ht⟩ := h
    exact (congrArg BitVec.toNat ht).trans_le (toNat_ite_le hskip hnext)
  | sknp =>
    obtain ⟨k, -, ht⟩ := h
    exact (congrArg BitVec.toNat ht).trans_le (toNat_ite_le hnext hskip)
  | ldVK => exact (congrArg BitVec.toNat h).trans_le (toNat_ite_le hnext hstay)
  | _ => exact (congrArg BitVec.toNat h).trans_le hnext

/-! ### Every tick and every operation of the host keeps the invariant -/

/-- Every info is at most 65535, the largest opcode, pc or I (R201). -/
theorem explains_info_lt {s : State} {f : FaultRecord} (h : Explains s f) : f.info < 2 ^ 17 := by
  have hpc := s.pc.isLt
  have hi := s.i.isLt
  obtain ⟨code, info⟩ := f
  cases code with
  | unknownOpcode =>
    obtain ⟨op, -, -, hinfo⟩ := h
    have hop := op.isLt
    omega
  | fetchOutOfRange | stackOverflow | stackUnderflow =>
    obtain ⟨-, hinfo⟩ := h
    omega
  | memoryOutOfRange =>
    have hinfo : info = max s.i.toNat 4096 := h
    show info < 2 ^ 17
    omega
  | keyIndexOutOfRange =>
    obtain ⟨-, x, hinfo⟩ := h
    have hx := (readV s x).isLt
    omega

theorem infoInRange_of_none {s : State} (h : s.fault = none) : InfoInRange s := fun _ hf => by cases h.symm.trans hf

theorem inv_raise {s : State} {f : FaultRecord} (hs : Inv s) (hf : Explains s f) : Inv (raise f s) where
  memory := hs.memory
  pc := hs.pc
  stack := hs.stack
  info g hg := by
    obtain rfl : f = g := Option.some.inj hg
    exact explains_info_lt hf

theorem step_keeps_inv {s t : State} (hs : Inv s) (h : step s = .next t) : Inv t := by
  obtain rfl | ⟨f, hf, rfl⟩ | ⟨i, u, hd, hexec, hu, rfl⟩ := step_explained_cases h
  · exact hs
  · exact inv_raise hs hf
  · have hpc := pc_le_of_fetchDecode_ok hd
    exact {
      memory := (exec_keepsWf i hs.memory).onSuccess u hexec hu
      pc := pcInReach_of_pcRule hpc hs.stack (exec_pcRule i s u hexec hu)
      stack := (exec_keepsStackOfCalls i hpc hs.stack).onSuccess u hexec hu
      info := infoInRange_of_none hu }

/-- Settles O13: a tick leaves the state, latches an explained fault, or runs one instruction and the timer step. -/
theorem everyTickKeepsTheInvariant : Obligations.EveryTickKeepsTheInvariant := fun _ _ => step_keeps_inv

/-- The invariant holds of any canonical memory at the entry point with nothing stacked and nothing latched. -/
theorem inv_of_entry {s : State} (hmem : Memory.wf s.mem = true) (hpc : s.pc = 0x0200) (hsp : s.sp = 0)
    (hf : s.fault = none) : Inv s where
  memory := hmem
  pc := (congrArg BitVec.toNat hpc).trans_le (by decide)
  stack k hk := by simp [hsp] at hk
  info := infoInRange_of_none hf

theorem inv_hostInit (font : Config.Font) (seed : Nat) (s : State) : Inv (hostInit font seed s) :=
  inv_of_entry (wf_hostInit font seed s) (hostInit_pc ..) (hostInit_sp ..) (hostInit_fault ..)

theorem inv_hostLoadRom (font : Config.Font) (seed : Nat) (bytes : List Byte) (s : State) :
    Inv (hostLoadRom font seed bytes s).1 := by
  have hmem := wf_hostLoadRom font seed bytes s
  obtain ⟨-, h⟩ | ⟨-, h⟩ := hostLoadRom_cases font seed bytes s
  · rw [h]
    exact inv_hostInit font seed s
  · rw [h] at hmem ⊢
    exact inv_of_entry hmem rfl rfl rfl

/-- Settles O14: reset and init leave canonical memory at the entry point, nothing stacked and nothing latched. -/
theorem invariantsHoldAfterReset : Obligations.InvariantsHoldAfterReset :=
  ⟨⟨inv_of_entry wf_reset rfl rfl rfl, faultExplained_of_none rfl⟩, fun font seed s =>
    ⟨inv_hostInit font seed s, faultExplained_of_none (hostInit_fault font seed s)⟩⟩

/-- Settles O15: the operations between ticks restart the machine, or write nothing the invariant reads. -/
theorem everyHostOperationKeepsTheInvariant : Obligations.EveryHostOperationKeepsTheInvariant := by
  intro font op s t hs h
  cases op with
  | tick => exact step_keeps_inv hs h
  | init seed =>
    obtain rfl := Host.Outcome.next.inj h
    exact inv_hostInit font seed s
  | loadRom seed bytes =>
    obtain rfl := Host.Outcome.next.inj h
    exact inv_hostLoadRom font seed bytes s
  | writeKey | clearDirty | readFramebuffer =>
    obtain rfl := Host.Outcome.next.inj h
    exact ⟨hs.memory, hs.pc, hs.stack, hs.info⟩

end Sys2Proof.Machine
end

section
/-! PROOFS. What no instruction sees: the sound timer (10_state.md R31), the random byte but for CXNN (R154), and the stack
slots at or above sp (R28). All three rest on one fact: execution commutes with a change of what it does not read. -/

namespace Sys2Proof.Machine

/-! ### Changing ST, the index of the random byte and the stack -/

/-- A change of ST, of the index of the next random byte and of the stack; `id` leaves its element as it is. -/
structure Change where
  st : Byte → Byte
  draws : Nat → Nat
  stack : Vector Word 16 → Vector Word 16

def Change.apply (g : Change) (s : State) : State :=
  { s with st := g.st s.st, draws := g.draws s.draws, stack := g.stack s.stack }

/-- The change leaves what instruction `i` reads or writes as it is: the stack for CALL and RET, the index for CXNN, ST for
FX18. -/
structure Change.HiddenFrom (g : Change) (i : Instr) : Prop where
  st : g.st = id ∨ ∀ x, i ≠ .ldSTV x
  draws : g.draws = id ∨ ∀ x nn, i ≠ .rnd x nn
  stack : g.stack = id ∨ (i ≠ .ret ∧ ∀ nnn, i ≠ .call nnn)

section
variable (g : Change) (s : State)

theorem writeAlu_change (x : Reg) (rf : Byte × Byte) : writeAlu x rf (g.apply s) = g.apply (writeAlu x rf s) := by
  simp only [writeAlu, writeResultFlag_eq_writesInOrder]
  cases Config.vfWriteOrder <;> rfl

theorem takeKey_change (x : Reg) : takeKey x (g.apply s) = g.apply (takeKey x s) := by
  have h : pressedKey (g.apply s) = pressedKey s := rfl
  unfold takeKey
  rw [h]
  cases pressedKey s <;> rfl

theorem drawAt_change (x y : Reg) (n : Nat) : drawAt x y n (g.apply s) = (drawAt x y n s).map g.apply := by
  have h : readAtI n (g.apply s) = readAtI n s := rfl
  unfold drawAt
  rw [h]
  cases readAtI n s <;> rfl

theorem skipOnKey_change (want : Bool) (x : Reg) :
    skipOnKey want x (g.apply s) = (skipOnKey want x s).map g.apply := by
  have h : keyState (readV (g.apply s) x) (g.apply s) = keyState (readV s x) s := rfl
  unfold skipOnKey
  rw [h]
  cases keyState (readV s x) s <;> rfl

theorem writeAtI_change (bytes : List Byte) : writeAtI bytes (g.apply s) = (writeAtI bytes s).map g.apply := by
  have h : memWrites (g.apply s).mem (g.apply s).i.toNat bytes = memWrites s.mem s.i.toNat bytes := rfl
  unfold writeAtI
  rw [h]
  cases memWrites s.mem s.i.toNat bytes <;> rfl

theorem storeDigits_change (x : Reg) : storeDigits x (g.apply s) = (storeDigits x s).map g.apply := by
  have h : readV (g.apply s) x = readV s x := rfl
  unfold storeDigits
  rw [h, writeAtI_change]
  cases writeAtI (decimalDigits (readV s x)) s <;> rfl

theorem dumpRegs_change (x : Reg) : dumpRegs x (g.apply s) = (dumpRegs x s).map g.apply := by
  have h : dumpedRegs x (g.apply s) = dumpedRegs x s := rfl
  unfold dumpRegs
  rw [h, writeAtI_change]
  cases writeAtI (dumpedRegs x s) s <;> rfl

theorem restoreRegs_change (x : Reg) : restoreRegs x (g.apply s) = (restoreRegs x s).map g.apply := by
  have h : readAtI (x.val + 1) (g.apply s) = readAtI (x.val + 1) s := rfl
  unfold restoreRegs
  rw [h]
  cases readAtI (x.val + 1) s <;> rfl

theorem returnFrom_change (hg : g.stack = id) : returnFrom (g.apply s) = (returnFrom s).map g.apply := by
  obtain ⟨st, draws, stack⟩ := g
  subst hg
  by_cases h : s.sp.val = 0 <;> simp [returnFrom, pop, Change.apply, h] <;> rfl

theorem callTo_change (nnn : BitVec 12) (hg : g.stack = id) :
    callTo nnn (g.apply s) = (callTo nnn s).map g.apply := by
  obtain ⟨st, draws, stack⟩ := g
  subst hg
  by_cases h : s.sp.val < 16 <;> simp [callTo, push, Change.apply, h] <;> rfl

end

section
variable {g : Change} {s t : State}

theorem complete_change {e : State → Except FaultRecord State} (he : e (g.apply s) = (e s).map g.apply)
    (h : complete s (e s) = .next t) : complete (g.apply s) (e (g.apply s)) = .next (g.apply t) := by
  rw [he]
  cases hr : e s <;> rw [hr] at h <;> obtain rfl := Host.Outcome.next.inj h <;> rfl

/-- Execution commutes with a change of what it neither reads nor writes. -/
theorem exec_change {i : Instr} (hg : g.HiddenFrom i) (h : exec i s = .next t) :
    exec i (g.apply s) = .next (g.apply t) := by
  cases i with
  | ret => exact complete_change (returnFrom_change g s (hg.stack.resolve_right fun hn => hn.1 rfl)) h
  | call nnn => exact complete_change (callTo_change g s nnn (hg.stack.resolve_right fun hn => hn.2 nnn rfl)) h
  | drw x y n => exact complete_change (drawAt_change g s x y n) h
  | skp x => exact complete_change (skipOnKey_change g s true x) h
  | sknp x => exact complete_change (skipOnKey_change g s false x) h
  | ldBV x => exact complete_change (storeDigits_change g s x) h
  | ldMV x => exact complete_change (dumpRegs_change g s x) h
  | ldVM x => exact complete_change (restoreRegs_change g s x) h
  | rnd x nn =>
    obtain ⟨st, draws, stack⟩ := g
    obtain rfl : draws = id := hg.draws.resolve_right fun hn => hn x nn rfl
    obtain rfl := Host.Outcome.next.inj h
    rfl
  | ldSTV x =>
    obtain ⟨st, draws, stack⟩ := g
    obtain rfl : st = id := hg.st.resolve_right fun hn => hn x rfl
    obtain rfl := Host.Outcome.next.inj h
    rfl
  | addVV | subVV | shrV | subnVV | shlV =>
    obtain rfl := Host.Outcome.next.inj h
    exact congrArg (Host.Outcome.next ∘ advance) (writeAlu_change g s _ _)
  | ldVK x =>
    obtain rfl := Host.Outcome.next.inj h
    exact congrArg Host.Outcome.next (takeKey_change g s x)
  | cls | jp | seVB | sneVB | seVV | sneVV | jpV0 | ldVB | addVB | ldVV | orVV | andVV | xorVV | ldI | addIV | ldFV
  | ldVDT | ldDTV =>
    obtain rfl := Host.Outcome.next.inj h
    rfl

end

/-- Settles O20: FX18 writes ST without reading it, and execution of any other instruction commutes with a change of ST. -/
theorem noInstructionReadsTheSoundTimer : Obligations.NoInstructionReadsTheSoundTimer := by
  intro i s t b hexec
  by_cases hi : ∃ x, i = .ldSTV x
  · obtain ⟨x, rfl⟩ := hi
    obtain rfl := Host.Outcome.next.inj hexec
    exact ⟨_, rfl, rfl⟩
  · exact ⟨_, exec_change (g := ⟨fun _ => b, id, id⟩) ⟨.inr (not_exists.1 hi), .inl rfl, .inl rfl⟩ hexec, rfl⟩

/-- Settles O21: execution of any instruction but CXNN commutes with a change of the index of the random byte. -/
theorem onlyRndReadsTheRandomByte : Obligations.OnlyRndReadsTheRandomByte := fun _ _ _ d hi hexec =>
  exec_change (g := ⟨id, fun _ => d, id⟩) ⟨.inl rfl, .inr hi, .inl rfl⟩ hexec

/-! ### The tick of a decoded instruction -/

/-- A tick that decodes an instruction runs it, and then the timer step unless it took a fault (R90, R96). -/
theorem step_of_exec {i : Instr} {s u : State} (hs : s.fault = none) (hd : fetchDecode s = .ok i)
    (h : exec i s = .next u) : step s = .next (finishTick u) := by
  simp only [step, tick, hs, hd, h]

theorem finishTick_of_none {s : State} (h : s.fault = none) : finishTick s = timerStep s := by rw [finishTick, h]; rfl

theorem finishTick_of_latched {s : State} {f : FaultRecord} (h : s.fault = some f) : finishTick s = s := by
  rw [finishTick, h]
  rfl

theorem exec_next (i : Instr) (s : State) : ∃ t, exec i s = .next t := by
  obtain ⟨f, h⟩ | ⟨t, h, -⟩ := exec_cases i s
  · exact ⟨_, h⟩
  · exact ⟨_, h⟩

/-! ### Stack slots at or above sp -/

theorem exec_stackKept {i : Instr} {s t : State} (hret : i ≠ .ret) (hcall : ∀ nnn, i ≠ .call nnn)
    (h : exec i s = .next t) : StackKept s t := by
  obtain hw | ⟨f, -, rfl⟩ := (exec_writesOnly i s).cases h
  · exact hw.stackKept hret hcall
  · exact ⟨rfl, rfl⟩

section
variable {s s' t : State} (h : SameButDeadSlots s s')
include h

theorem SameButDeadSlots.fault : s'.fault = s.fault := (congrArg State.fault h.1).trans rfl

theorem SameButDeadSlots.fetchDecode : fetchDecode s' = fetchDecode s := (congrArg Machine.fetchDecode h.1).trans rfl

/-- A fault leaves both stacks as they are. -/
theorem SameButDeadSlots.raise (f : FaultRecord) : SameButDeadSlots (raise f s) (raise f s') := by
  obtain ⟨heq, hslots⟩ := h
  exact ⟨by rw [heq]; rfl, hslots⟩

theorem SameButDeadSlots.finishTick : SameButDeadSlots (finishTick s) (finishTick s') := by
  have hfault := h.fault
  obtain ⟨heq, hslots⟩ := h
  cases hs : s.fault with
  | none =>
    rw [finishTick_of_none hs, finishTick_of_none (hfault.trans hs)]
    exact ⟨by rw [heq]; rfl, hslots⟩
  | some f =>
    rw [finishTick_of_latched hs, finishTick_of_latched (hfault.trans hs)]
    exact ⟨heq, hslots⟩

/-- RET reads the slot below sp, where both stacks agree. -/
theorem exec_ret_sameButDeadSlots (hexec : exec .ret s = .next t) :
    ∃ t', exec .ret s' = .next t' ∧ SameButDeadSlots t t' := by
  obtain ⟨heq, hslots⟩ := h
  rw [heq]
  by_cases h0 : s.sp = 0
  · obtain rfl := Host.Outcome.next.inj ((exec_ret_of_empty h0).symm.trans hexec)
    exact ⟨_, exec_ret_of_empty h0, rfl, hslots⟩
  · have h0 : s.sp.val ≠ 0 := fun e => h0 (Fin.ext e)
    obtain rfl := Host.Outcome.next.inj ((exec_ret_of_ne_zero s h0).symm.trans hexec)
    refine ⟨_, exec_ret_of_ne_zero _ h0, ?_, fun k hk => hslots k (Nat.lt_of_lt_of_le hk (Nat.sub_le _ _))⟩
    have hlt : s.sp.val - 1 < s.sp.val := by omega
    have htop : s'.stack[s.sp.val - 1] = s.stack[s.sp.val - 1] := hslots ⟨s.sp.val - 1, by omega⟩ hlt
    simp only [htop]
    rfl

/-- CALL writes slot sp of both stacks with the same value. -/
theorem exec_call_sameButDeadSlots {nnn : BitVec 12} (hexec : exec (.call nnn) s = .next t) :
    ∃ t', exec (.call nnn) s' = .next t' ∧ SameButDeadSlots t t' := by
  obtain ⟨heq, hslots⟩ := h
  rw [heq]
  obtain ⟨hsp, -⟩ | ⟨h16, -⟩ := push_cases s.pc s
  · obtain rfl := Host.Outcome.next.inj ((exec_call_of_lt nnn s hsp).symm.trans hexec)
    refine ⟨_, exec_call_of_lt nnn { s with stack := s'.stack } hsp, rfl, fun k hk => ?_⟩
    have hk : k.val < s.sp.val + 1 := hk
    by_cases hkt : s.sp.val = k.val
    · simp [hkt]
    · simpa [hkt] using hslots k (by omega)
  · obtain rfl := Host.Outcome.next.inj ((exec_call_of_full nnn h16).symm.trans hexec)
    exact ⟨_, exec_call_of_full nnn h16, rfl, hslots⟩

theorem exec_sameButDeadSlots {i : Instr} (hexec : exec i s = .next t) :
    ∃ t', exec i s' = .next t' ∧ SameButDeadSlots t t' := by
  by_cases hret : i = .ret
  · subst hret
    exact exec_ret_sameButDeadSlots h hexec
  by_cases hcall : ∃ nnn, i = .call nnn
  · obtain ⟨nnn, rfl⟩ := hcall
    exact exec_call_sameButDeadSlots h hexec
  have hcall := not_exists.1 hcall
  obtain ⟨hstack, hsp⟩ := exec_stackKept hret hcall hexec
  obtain ⟨heq, hslots⟩ := h
  have hchange := exec_change (g := ⟨id, id, fun _ => s'.stack⟩) ⟨.inl rfl, .inl rfl, .inr ⟨hret, hcall⟩⟩ hexec
  rw [heq]
  refine ⟨_, hchange, rfl, fun k hk => ?_⟩
  rw [hstack]
  exact hslots k (hsp ▸ hk)

end

/-- Settles O22: fetch and decode do not read the stack, and each instruction keeps the relation. -/
theorem poppedStackSlotsAreNeverSeen : Obligations.PoppedStackSlotsAreNeverSeen := by
  intro s s' t h hstep
  cases hs : s.fault with
  | some f =>
    obtain rfl := Host.Outcome.next.inj ((step_of_latched hs).symm.trans hstep)
    exact ⟨s', step_of_latched (h.fault.trans hs), h⟩
  | none =>
    cases hd : fetchDecode s with
    | error f =>
      obtain rfl := Host.Outcome.next.inj ((step_of_fetchDecode_error hs hd).symm.trans hstep)
      exact ⟨_, step_of_fetchDecode_error (h.fault.trans hs) (h.fetchDecode.trans hd), h.raise f⟩
    | ok i =>
      obtain ⟨u, hu⟩ := exec_next i s
      obtain ⟨u', hu', hsame⟩ := exec_sameButDeadSlots h hu
      obtain rfl := Host.Outcome.next.inj ((step_of_exec hs hd hu).symm.trans hstep)
      exact ⟨_, step_of_exec (h.fault.trans hs) (h.fetchDecode.trans hd) hu', hsame.finishTick⟩

end Sys2Proof.Machine
end

section
/-! PROOFS. Ticks in a row: the decoded instruction and the timer step (40_cycle.md R90-R98), an instruction that leaves the
state as it is (R121, R183), DT set and read (R237), and the word placed for the next step (log 7). -/

namespace Sys2Proof.Machine

/-! ### One tick -/

theorem fetchDecode_of_decode_ok {s : State} {op : Word} {i : Instr} (hop : fetch s = .ok op) (hi : decode op = .ok i) :
    fetchDecode s = .ok i := by
  simp only [fetchDecode, hop, decodeOrRaise, hi]

theorem step_of_exec_ok {i : Instr} {s u : State} (hs : s.fault = none) (hd : fetchDecode s = .ok i)
    (h : exec i s = .next u) (hu : u.fault = none) : step s = .next (timerStep u) := by
  rw [step_of_exec hs hd h, finishTick_of_none hu]

/-- Settles O6: the tick of a decoded instruction, by whether the instruction took a fault. -/
theorem stepRunsTheDecodedInstruction : Obligations.StepRunsTheDecodedInstruction := by
  intro s t i hs hpc hi hexec
  have hstep := step_of_exec hs (fetchDecode_of_decode_ok (fetch_of_le hpc) hi) hexec
  constructor
  · intro ht
    rw [finishTick_of_none ht] at hstep
    exact ⟨_, hstep, rfl, countDown_toNat t.dt, countDown_toNat t.st⟩
  · intro ht
    obtain ⟨f, hf⟩ := Option.ne_none_iff_exists'.1 ht
    rwa [finishTick_of_latched hf] at hstep

/-! ### Ticks that only step the timers -/

theorem ofNat_countDown_sub (t : Byte) (n : Nat) :
    BitVec.ofNat 8 ((countDown t).toNat - n) = BitVec.ofNat 8 (t.toNat - (n + 1)) := by
  rw [countDown_toNat, Nat.sub_sub, Nat.add_comm]

theorem timersAfter_zero (s : State) : timersAfter 0 s = s := by simp [timersAfter]

theorem timersAfter_timerStep (n : Nat) (s : State) : timersAfter n (timerStep s) = timersAfter (n + 1) s := by
  simp only [timersAfter, timerStep, ofNat_countDown_sub]

/-- An instruction that leaves the state as it is, whatever the timers, is run again by every tick, and only the timers
move. -/
theorem run_of_exec_self {i : Instr} (n : Nat) {s : State} (hs : s.fault = none) (hd : fetchDecode s = .ok i)
    (h : ∀ dt st, exec i { s with dt := dt, st := st } = .next { s with dt := dt, st := st }) :
    Host.Core.run core n s = .next (timersAfter n s) := by
  induction n generalizing s with
  | zero => exact congrArg Host.Outcome.next (timersAfter_zero s).symm
  | succ n ih =>
    have hstep : core.step s = .next (timerStep s) := step_of_exec_ok hs hd (h s.dt s.st) hs
    simp only [Host.Core.run, hstep]
    rw [ih (s := timerStep s) hs hd h, timersAfter_timerStep]

/-- Settles O33: the jump leaves the pc, hence the state, as it is. -/
theorem jumpToItselfChangesOnlyTheTimers : Obligations.JumpToItselfChangesOnlyTheTimers := by
  intro n s nnn hs hd hnnn
  have hpc : address nnn = s.pc := BitVec.eq_of_toNat_eq ((address_toNat nnn).trans hnnn)
  refine run_of_exec_self n hs hd fun dt st => ?_
  show Host.Outcome.next (jumpTo (address nnn) { s with dt := dt, st := st }) = _
  rw [hpc]
  rfl

/-- Settles O49: with no key pressed the wait leaves the state as it is. -/
theorem keyWaitHoldsPcWhileNoKeyIsPressed : Obligations.KeyWaitHoldsPcWhileNoKeyIsPressed := fun n s x hs hd hoff =>
  run_of_exec_self n hs hd fun dt st =>
    congrArg Host.Outcome.next (takeKey_of_noKey x (s := { s with dt := dt, st := st }) hoff)

/-! ### DT set by one tick and read by the next -/

theorem step_ldDTV {x : Reg} {s : State} (hs : s.fault = none) (hd : fetchDecode s = .ok (.ldDTV x)) :
    step s = .next (timerStep (advance { s with dt := readV s x })) := step_of_exec_ok hs hd rfl hs

theorem step_ldVDT {y : Reg} {s : State} (hs : s.fault = none) (hd : fetchDecode s = .ok (.ldVDT y)) :
    step s = .next (timerStep (advance (writeV y s.dt s))) := step_of_exec_ok hs hd rfl hs

/-- Settles O51: the timer step of the first tick comes between the write of DT and its read. -/
theorem delaySetThenReadIsOneLess : Obligations.DelaySetThenReadIsOneLess := by
  refine fun x y s hs hd => ⟨_, step_ldDTV hs hd, hs, fun hd' => ⟨_, step_ldVDT hs hd', hs, ?_⟩⟩
  exact (congrArg BitVec.toNat (readV_writeV_self y (countDown (readV s x)) _)).trans (countDown_toNat _)

/-! ### The word placed for the next step -/

theorem decode_of_decodeTableWord {w : Nat} {i : Instr} (h : decodeTableWord 16 w = some i) :
    decode (opcodeOfBytes (tableBytes 16 w).1 (tableBytes 16 w).2) = .ok i := by
  unfold decodeTableWord decodeBytes at h
  cases hd : decode (opcodeOfBytes (tableBytes 16 w).1 (tableBytes 16 w).2) with
  | ok j => simpa [hd] using h
  | error e => simp [hd] at h

theorem placeAtPc_pc_le (s : State) (bytes : Byte × Byte) : (placeAtPc s bytes).pc.toNat ≤ 0x0FFE := by
  show (if Config.lastFetch < s.pc.toNat then BitVec.ofNat 16 Config.romBase else s.pc).toNat ≤ 0x0FFE
  split
  · decide
  · next h => exact Nat.not_lt.1 h

/-- The bytes placed are the ones fetched, the high byte at the lower address (R53). -/
theorem fetch_placeAtPc (s : State) (bytes : Byte × Byte) :
    fetch (placeAtPc s bytes) = .ok (opcodeOfBytes bytes.1 bytes.2) := by
  have hmem : (placeAtPc s bytes).mem = Memory.write (Memory.write s.mem (placeAtPc s bytes).pc.toNat bytes.1)
    ((placeAtPc s bytes).pc.toNat + 1) bytes.2 := rfl
  rw [fetch_of_le (placeAtPc_pc_le s bytes), hmem, read_write_self, read_write_ne _ _ (by omega), read_write_self]

/-- Settles O56: the placed bytes are fetched, and a state so made has no fault latched. -/
theorem placedWordIsTheNextInstruction : Obligations.PlacedWordIsTheNextInstruction := by
  intro s w i _ hw
  obtain ⟨t, ht⟩ := exec_next i (s.withFetchWord 16 w)
  have hd := fetchDecode_of_decode_ok (fetch_placeAtPc s (tableBytes 16 w)) (decode_of_decodeTableWord hw)
  exact ⟨t, ht, step_of_exec rfl hd ht⟩

end Sys2Proof.Machine
end

section
/-! PROOFS. Drawing twice (41_display.md R114), the random byte under its mask (43_alu.md R155), stored bytes fetched
(20_memory.md R63), and the glyph FX29 points at (R57, R162). -/

namespace Sys2Proof.Machine

/-! ### Drawing twice -/

/-- What DRW leaves in a state with its rows in memory: the sprite drawn, and the collision in VF. -/
theorem drawn_of_exec_drw {x y : Reg} {n : Nat} {s t : State} (hn : n ≤ 32) (hin : InMemory s.i.toNat n)
    (h : exec (.drw x y n) s = .next t) :
    ∃ hit, Drawn (SpriteOn x y n s) (s.fb, false) (t.fb, hit) ∧ readV t vF = flagByte hit := by
  rw [exec_drw_of_inMemory hin] at h
  obtain rfl := Host.Outcome.next.inj h
  exact ⟨_, drwCanvas_drawn x y s hn, readV_writeV_self vF _ _⟩

/-- The pixels of a sprite depend on the coordinates, I and the sprite bytes only. -/
theorem spriteOn_congr {x y : Reg} {n : Nat} {s m : State} (hx : readV m x = readV s x) (hy : readV m y = readV s y)
    (hi : m.i = s.i) (hmem : ∀ k, k < n → Memory.read m.mem (s.i.toNat + k) = Memory.read s.mem (s.i.toNat + k)) :
    SpriteOn x y n m = SpriteOn x y n s := by
  funext r c
  unfold SpriteOn
  rw [hx, hy, hi]
  refine propext (exists_congr fun i => exists_congr fun j => and_congr_right fun hlt => ?_)
  rw [hmem i hlt]

section
variable {on : Fin 32 → Fin 64 → Prop} {fb fb₁ fb₂ : Framebuffer} {b₁ b₂ : Bool}

/-- Two flips of the same pixels restore the screen. -/
theorem Drawn.twice_restores (h₁ : Drawn on (fb, false) (fb₁, b₁)) (h₂ : Drawn on (fb₁, false) (fb₂, b₂)) (r : Fin 32)
    (c : Fin 64) : pixel fb₂ r c = pixel fb r c := by
  by_cases hon : on r c
  · exact (h₂.flips r c hon).trans ((congrArg (!·) (h₁.flips r c hon)).trans (Bool.not_not _))
  · exact (h₂.keeps r c hon).trans (h₁.keeps r c hon)

/-- The pixels drawn twice that are on in between are those the first draw turned on. -/
theorem Drawn.twice_collides (h₁ : Drawn on (fb, false) (fb₁, b₁)) (h₂ : Drawn on (fb₁, false) (fb₂, b₂)) :
    b₂ = true ↔ ∃ r c, pixel fb r c = false ∧ pixel fb₁ r c = true := by
  refine h₂.collides.trans ((or_iff_right Bool.false_ne_true).trans (exists_congr fun r => exists_congr fun c => ?_))
  refine and_congr_left fun hlit => ⟨fun hon => ?_, fun hoff => ?_⟩
  · exact Bool.not_eq_true' _ ▸ (h₁.flips r c hon).symm.trans hlit
  · by_contra hon
    exact Bool.false_ne_true (hoff.symm.trans ((h₁.keeps r c hon).symm.trans hlit))

end

theorem flagByte_eq_one_iff (b : Bool) : flagByte b = 1 ↔ b = true := by cases b <;> decide

theorem flagByte_eq_one_or_zero (b : Bool) : flagByte b = 1 ∨ flagByte b = 0 := by cases b <;> decide

/-- Settles O25: both draws flip the same set of pixels. -/
theorem drawingTwiceRestoresTheScreen : Obligations.DrawingTwiceRestoresTheScreen := by
  intro x y n s t m u hn _ _ hin ht hfb hx hy hi hmem hu
  have hn : n ≤ 32 := by omega
  obtain ⟨_, hfirst, -⟩ := drawn_of_exec_drw hn hin ht
  obtain ⟨hit, hsecond, hflag⟩ := drawn_of_exec_drw hn (hi ▸ hin) hu
  rw [spriteOn_congr hx hy hi hmem, hfb] at hsecond
  rw [hflag]
  exact ⟨hfirst.twice_restores hsecond, (flagByte_eq_one_iff hit).trans (hfirst.twice_collides hsecond),
    flagByte_eq_one_or_zero hit⟩

/-! ### The random byte under its mask -/

/-- Settles O40: one register write of the free byte AND the mask, read bit by bit. -/
theorem rndMasksTheFreeByte : Obligations.RndMasksTheFreeByte := by
  refine ⟨encodes_rnd, fun x nn s => ?_⟩
  have hread : readV (advance (writeV x (Config.randByte s.draws &&& nn) (drawRandom s).2)) x =
      Config.randByte s.draws &&& nn := readV_advance_writeV_self x _ _
  refine ⟨_, rfl, fun k _ => ?_, ?_, ?_, fun r hr => readV_writeV_ne _ _ hr, rfl, fun _ => rfl, ⟨rfl, rfl⟩, ⟨rfl, rfl⟩,
    ⟨rfl, rfl⟩, rfl, rfl, rfl, rfl⟩
  · exact (congrArg (·.getLsbD k) hread).trans (BitVec.getLsbD_and ..)
  · rintro rfl
    exact hread.trans BitVec.and_zero
  · rintro rfl
    exact hread.trans BitVec.and_allOnes

/-! ### Stored bytes are fetched -/

/-- A fetch sees what memory reads (R53, R91). -/
theorem fetchSees_of_read {m : State} {a b : Nat} (h : (Memory.read m.mem a).toNat = b) : FetchSees m a b := by
  subst h
  constructor
  · rintro rfl hle
    refine ⟨_, fetch_of_le hle, ?_⟩
    have hlo := (Memory.read m.mem (m.pc.toNat + 1)).isLt
    rw [opcodeOfBytes_toNat]
    omega
  · rintro rfl hle
    refine ⟨_, fetch_of_le (by omega), ?_⟩
    have hlo := (Memory.read m.mem (m.pc.toNat + 1)).isLt
    rw [opcodeOfBytes_toNat]
    omega

/-- Settles O46: the stored bytes are those of the dump and of the three digits, and a fetch sees what memory reads. -/
theorem storedBytesAreFetched : Obligations.StoredBytesAreFetched := by
  refine fun x s t m hm => ⟨fun hin ht k hk => fetchSees_of_read ?_, fun hin ht => ?_⟩
  · rw [hm, read_of_exec_ldMV hin ht hk]
  · obtain ⟨u, hu, h0, h1, h2, -⟩ := (bcdStoresThreeDigits.2 x s).1 hin
    obtain rfl := Host.Outcome.next.inj (ht.symm.trans hu)
    exact ⟨fetchSees_of_read (by rw [hm, h0]), fetchSees_of_read (by rw [hm, h1]), fetchSees_of_read (by rw [hm, h2])⟩

/-! ### The glyph of the font -/

/-- Settles O58: glyph k is at 5k to 5k + 4, below 80, where init put the font. -/
theorem ldFPointsAtTheGlyphOfFont : Obligations.LdFPointsAtTheGlyphOfFont := by
  intro font seed s m t x k j hmem hx ht
  obtain rfl := Host.Outcome.next.inj ht
  have haddr : (glyphAddress (readV m x)).toNat + j.val = 5 * k.val + j.val := by
    rw [glyphAddress_toNat, hx, Nat.mul_comm]
  have hlt : 5 * k.val + j.val < 80 := by omega
  show font[5 * k.val + j.val]? = some (Memory.read m.mem ((glyphAddress (readV m x)).toNat + j.val))
  rw [haddr, hmem, read_hostInit, dif_pos hlt, Vector.getElem?_eq_getElem hlt]

end Sys2Proof.Machine
end

section
/-! PROOFS. The host between ticks (60_exceptions.md R215) and the reset state (70_reset_and_hazards.md R231, R232). -/

namespace Sys2Proof.Machine

/-- Settles O53: init takes nothing from the state before it but the index of the random byte. -/
theorem initIsIdempotent : Obligations.InitIsIdempotent := fun _ _ _ _ _ => ⟨rfl, rfl⟩

/-- Settles O55: each operation by its definition; one key of the keypad is set. -/
theorem hostWritesOnlyKeypadAndDirty : Obligations.HostWritesOnlyKeypadAndDirty := by
  refine fun font k b s => ⟨⟨hostWriteKey k b s, rfl, rfl, ?_, fun j hj => ?_⟩, rfl, rfl, rfl⟩
  · simp
  · have hne : k.val ≠ j.val := fun e => hj (Fin.ext e.symm)
    simp [hne]

theorem hostInit_defaultFont (seed : Nat) (s : State) :
    hostInit defaultFont seed s = { State.reset with draws := s.draws } := by
  rw [hostInit, resetFor_defaultFont]

/-- Settles O57: with the default font init lists no byte, and load_rom of no bytes writes none. -/
theorem resetIsInitWithTheDefaultFont : Obligations.ResetIsInitWithTheDefaultFont := by
  refine fun seed s => ⟨hostInit_defaultFont seed s, ?_⟩
  rw [← hostInit_defaultFont seed s]
  rfl

end Sys2Proof.Machine
end
